-- ==== Sys2Proof/Word.lean ====
section
/-! DEFINITION. The word and byte types of SHA256-CORE (00_scope.md R7 WORD_BITS, R8). -/

namespace Sys2Proof

/-- An unsigned 32-bit hash word; `+` on it is addition modulo 2^32 (R8, R9, R112). -/
abbrev Word := BitVec 32

/-- An unsigned 8-bit message byte (R82, R140). -/
abbrev Byte := BitVec 8

end Sys2Proof
end

