-- ==== Sys2Proof/Syntax.lean ====
section
/-! DEFINITION. The operations of SHA256-CORE: one constructor per row of opcode_table.json. -/

namespace Sys2Proof

/-- What the host can ask of one instance: the four commands of the command port (R81) and the digest word select (R85).
INIT, FINAL and RSVD carry the `data` field that R82 says is ignored, so that no bit of a command word is lost. -/
inductive Instr where
  /-- INIT, `op = 0b00` (R192). -/
  | init (data : Byte)
  /-- ABSORB, `op = 0b01`: append the message byte `db` (R140). -/
  | absorb (db : Byte)
  /-- FINAL, `op = 0b10` (R210). -/
  | final (data : Byte)
  /-- RSVD, `op = 0b11`: the reserved operation (R194). -/
  | rsvd (data : Byte)
  /-- READ: drive `dsel = i` and sample `dout`; no command word and no edge (R240). -/
  | read (i : BitVec 3)
  deriving DecidableEq, Repr

end Sys2Proof
end

