-- ==== Sys2Proof/Decode.lean ====
section
/-! DEFINITION. Decoding and encoding of the command word and of the digest select (30_encoding.md R80 to R85). -/

namespace Sys2Proof

/-- What the host drives: the 10-bit command word `cmd[9:0]` (format CMD10, R80) or the 3-bit `dsel[2:0]` (DSEL3, R85). -/
inductive PortWord where
  | cmd (w : BitVec 10)
  | dsel (w : BitVec 3)
  deriving DecidableEq, Repr

/-- Why a raw number is not a port word. -/
inductive DecodeError where
  /-- The number needs more than the ten bits of `cmd` (R80). -/
  | commandTooWide
  /-- The number needs more than the three bits of `dsel` (R85). -/
  | selectTooWide
  /-- No format of the opcode table is that long: there are no longer forms (R80). -/
  | noSuchFormat
  deriving DecidableEq, Repr

/-- `op = cmd[9:8]` (R80). -/
def opField (w : BitVec 10) : BitVec 2 := w.extractLsb' 8 2

/-- `data = cmd[7:0]` (R80). -/
def dataField (w : BitVec 10) : Byte := w.extractLsb' 0 8

/-- `Decode(cmd[9:0])`, total on the ten bits (R83). -/
def decodeCmd (w : BitVec 10) : Instr :=
  if opField w = 0b00#2 then .init (dataField w)
  else if opField w = 0b01#2 then .absorb (dataField w)
  else if opField w = 0b10#2 then .final (dataField w)
  else .rsvd (dataField w)

/-- The decoder of both ports: every command word and every select value decodes (R83, R85). -/
def decode : PortWord → Instr
  | .cmd w => decodeCmd w
  | .dsel w => .read w

/-- The port word in a number of `nbits` bits (whole bytes): up to one byte is a `dsel` value, up to two bytes a command
word. Bits that the port does not have, and lengths that no format has, are refused by name. -/
def portWordOf (nbits w : Nat) : Except DecodeError PortWord :=
  if nbits ≤ 8 then
    if w < 8 then .ok (.dsel (BitVec.ofNat 3 w)) else .error .selectTooWide
  else if nbits ≤ 16 then
    if w < 1024 then .ok (.cmd (BitVec.ofNat 10 w)) else .error .commandTooWide
  else .error .noSuchFormat

/-- The decoder of a raw number, total and refusing by name. -/
def decodeRaw (nbits w : Nat) : Except DecodeError Instr :=
  match portWordOf nbits w with
  | .ok p => .ok (decode p)
  | .error e => .error e

/-- The instruction the decoder reads from a word numbered as opcode_table.json numbers it. -/
def decodeTableWord (nbits w : Nat) : Option Instr :=
  match decodeRaw nbits w with
  | .ok i => some i
  | .error _ => none

/-- The command word of an operation code and a data byte, `cmd = op : data` (R80). -/
def commandWord (op : BitVec 2) (data : Byte) : BitVec 10 := op ++ data

/-- The word of each instruction (R81, R85, R87). -/
def encode : Instr → PortWord
  | .init data => .cmd (commandWord 0b00 data)
  | .absorb db => .cmd (commandWord 0b01 db)
  | .final data => .cmd (commandWord 0b10 data)
  | .rsvd data => .cmd (commandWord 0b11 data)
  | .read i => .dsel i

/-- The width of a port word in whole bytes, in bits. -/
def tableBits : PortWord → Nat
  | .cmd _ => 16
  | .dsel _ => 8

/-- A port word as the number opcode_table.json writes. -/
def tableNumber : PortWord → Nat
  | .cmd w => w.toNat
  | .dsel w => w.toNat

end Sys2Proof
end

