-- ==== Sys2Proof/Machine/Functions.lean ====
section
/-! DEFINITION. The word functions of the compression (40_functions.md R103 to R110). Word addition is `+` on `Word`,
counter addition is `+` on `BitVec 64`, both modular (R112, R113); no other arithmetic exists (R114). -/

namespace Sys2Proof.Machine

/-- Logical shift right, zeros from the left (R104). -/
def shr (x : Word) (n : Nat) : Word := x >>> n

/-- Rotate right by `n`, for `0 < n < 32` (R103). -/
def rotr (x : Word) (n : Nat) : Word := shr x n ||| x <<< (32 - n)

/-- Choose (R105, in the source's OR form; 90_conflicts.md C7). -/
def ch (x y z : Word) : Word := (x &&& y) ||| (~~~x &&& z)

/-- Majority (R106). -/
def maj (x y z : Word) : Word := (x &&& y) ^^^ (y &&& z) ^^^ (z &&& x)

/-- Big sigma 0, of working register `a` (R107). -/
def bigSigma0 (x : Word) : Word := rotr x 2 ^^^ rotr x 13 ^^^ rotr x 22

/-- Big sigma 1, of working register `e` (R108). -/
def bigSigma1 (x : Word) : Word := rotr x 6 ^^^ rotr x 11 ^^^ rotr x 25

/-- Small sigma 0, of `W[t-15]` (R109). -/
def smallSigma0 (x : Word) : Word := rotr x 7 ^^^ rotr x 18 ^^^ shr x 3

/-- Small sigma 1, of `W[t-2]` (R110). -/
def smallSigma1 (x : Word) : Word := rotr x 17 ^^^ rotr x 19 ^^^ shr x 10

end Sys2Proof.Machine
end

