-- ==== Sys2Proof/Config.lean ====
section
/-! DEFINITION. The one fixed configuration of SHA256-CORE (00_scope.md R7).
Widths that R7 fixes are carried by the types of the state; the counts a definition needs are named here.
R7 names no free value: nothing here is opaque. -/

namespace Sys2Proof

/-- ROUNDS: mixing rounds of one compression (R7). -/
abbrev Config.rounds : Nat := 64

/-- PAD_LIMIT: the count of bytes before the length trailer in the last block (R7, R212). -/
abbrev Config.padLimit : Nat := 56

/-- COMPRESS_CYCLES: 64 round edges and one feed-forward edge (R7, R169; decision D8).
Only the timing formula of R299 uses it: the engine itself counts edges with `t`. -/
abbrev Config.compressCycles : Nat := 65

end Sys2Proof
end

