-- ==== Sys2Proof/Machine/State.lean ====
section
/-! DEFINITION. The state of one SHA256-CORE instance (10_state.md R20), the digest select the host drives (R33), what the
host does next (30_encoding.md R87, R88), and the reasons a step can stop. -/

namespace Sys2Proof.Machine

/-- The controller state `phase` (R30): the five used codes and the three that no rule writes (R195). -/
inductive Phase where
  | accept
  | cmpAbs
  | cmpFin1
  | cmpFin2
  | done
  | unused5
  | unused6
  | unused7
  deriving DecidableEq, Repr

/-- The error cause register (R29, R261). -/
inductive ErrCause where
  | none
  | absorbAfterFinal
  | finalAfterFinal
  | reservedOp
  deriving DecidableEq, Repr

/-- The working registers `a..h` (R25). -/
structure Working where
  a : Word
  b : Word
  c : Word
  d : Word
  e : Word
  f : Word
  g : Word
  h : Word
  deriving DecidableEq, Repr

/-- One thing the host does (R87, R88), or one edge driven at port level. The input ports `rst`, `cmd_valid` and `cmd` of an
edge are what the directive at the head of `State.host` drives. -/
inductive Directive where
  /-- One edge with these values on `rst`, `cmd_valid` and `cmd`, whatever `cmd_ready` says (R33, R190, R295). -/
  | drive (rst valid : Bool) (cmd : BitVec 10)
  /-- Present the word with `cmd_valid = 1` and hold it until an edge accepts it (R87, R294). -/
  | issue (cmd : BitVec 10)
  /-- RESET: one edge with `rst = 1` (R88). -/
  | reset
  /-- IDLE k: `k` edges with `cmd_valid = 0` (R88). -/
  | idle (k : Nat)
  /-- WAIT_READY: idle edges until `cmd_ready = 1` (R88). -/
  | waitReady
  /-- WAIT_DONE: idle edges until `done = 1` (R88). -/
  | waitDone
  /-- READ i: drive `dsel = i` and sample `dout`, with no edge (R88, R240). -/
  | read (i : BitVec 3)
  deriving DecidableEq, Repr

/-- One instance and its host. -/
structure State where
  /-- Digest register `H[0..7]` (R21). -/
  H : Vector Word 8
  /-- Block buffer `B[0..15]` (R22). -/
  B : Vector Word 16
  /-- Bytes-used count `n` (R23). -/
  n : BitVec 6
  /-- Bit-length counter `L` (R24). -/
  L : BitVec 64
  /-- Working registers `a..h` (R25). -/
  work : Working
  /-- Schedule window `Wwin[0..15]` (R26). -/
  Wwin : Vector Word 16
  /-- Round counter `t` (R28). -/
  t : BitVec 7
  /-- Controller state (R30). -/
  phase : Phase
  /-- Error cause (R29). -/
  errCause : ErrCause
  /-- The value the host drives on `dsel` (R33). An input, not a register. -/
  dsel : BitVec 3
  /-- The MODEL'S own fault bit of R267: an ABSORB or a FINAL was accepted in DONE since reset. No port shows it. -/
  misuse : Bool
  /-- What the host does next, first thing first. When it is empty the host leaves the instance idle. -/
  host : List Directive
  deriving DecidableEq, Repr

/-- No step faults: data raises no error (R260) and a protocol error traps nothing (R266). -/
inductive Fault where
  deriving DecidableEq, Repr

/-- Why a step has no meaning. -/
inductive Refusal where
  /-- Raised by `exec` alone, for an instruction without a meaning: there is none in this model. Safe. -/
  | notModelled (mnemonic : String)
  /-- Raised by every step but a reset edge in a state whose `phase` holds an unused code (R195, U6). Safe. -/
  | unusedPhase (phase : Phase)
  /-- Raised by every step but a reset edge in a state whose `t` is 65..127 (R28, U7). Safe. -/
  | counterOutOfRange (t : BitVec 7)
  deriving DecidableEq, Repr

/-- The state after a reset edge (R292), the host having nothing to do. `B`, `Wwin` and `a..h` are unspecified there and are
0 here (DESIGN CHOICE, unsafe, log entry 1); `dsel` is the host's and is 0 here (DESIGN CHOICE, log entry 2). -/
def State.reset : State where
  H := IV
  B := Vector.replicate 16 0
  n := 0
  L := 0
  work := ⟨0, 0, 0, 0, 0, 0, 0, 0⟩
  Wwin := Vector.replicate 16 0
  t := 0
  phase := .accept
  errCause := .none
  dsel := 0
  misuse := false
  host := []

end Sys2Proof.Machine
end

