-- ==== Sys2Proof/Machine/Flags.lean ====
section
/-! DEFINITION. The register codes that ports show and the status outputs (10_state.md R30, R33, R34). No arithmetic sets a
flag (R34): the outputs below are all there are. -/

namespace Sys2Proof.Machine

/-- The 3-bit code of a controller state (R30). -/
def Phase.code : Phase → BitVec 3
  | .accept => 0b000
  | .cmpAbs => 0b001
  | .cmpFin1 => 0b010
  | .cmpFin2 => 0b011
  | .done => 0b100
  | .unused5 => 0b101
  | .unused6 => 0b110
  | .unused7 => 0b111

/-- The five codes a rule writes (R30, R195). -/
def Phase.used : Phase → Bool
  | .accept | .cmpAbs | .cmpFin1 | .cmpFin2 | .done => true
  | .unused5 | .unused6 | .unused7 => false

/-- A compression runs: CMP_ABS, CMP_FIN1 or CMP_FIN2 (R30). -/
def Phase.compressing : Phase → Bool
  | .cmpAbs | .cmpFin1 | .cmpFin2 => true
  | .accept | .done | .unused5 | .unused6 | .unused7 => false

/-- The 2-bit code of an error cause (R261). -/
def ErrCause.code : ErrCause → BitVec 2
  | .none => 0b00
  | .absorbAfterFinal => 0b01
  | .finalAfterFinal => 0b10
  | .reservedOp => 0b11

/-- `cmd_ready = (phase == ACCEPT) or (phase == DONE)` (R34). -/
def State.cmdReady (s : State) : Bool := s.phase == .accept || s.phase == .done

/-- `done = (phase == DONE)` (R34). -/
def State.done (s : State) : Bool := s.phase == .done

/-- `err = (err_cause != 0b00)` (R34). -/
def State.err (s : State) : Bool := s.errCause.code != 0b00

/-- `dout = H[dsel]` for the select value `i` (R240). -/
def State.dout (s : State) (i : BitVec 3) : Word := s.H[i.toFin]

/-- What the output ports show at one instant (R33). -/
structure Outputs where
  cmdReady : Bool
  done : Bool
  err : Bool
  errCause : BitVec 2
  dout : Word
  deriving DecidableEq, Repr

/-- Why the spec gives this state no step and no observation, if so: an unused phase code (R195, U6) or `t` above 64 (R28, U7). -/
def State.refusal? (s : State) : Option Refusal :=
  if s.phase.used = false then some (.unusedPhase s.phase)
  else if 64 < s.t.toNat then some (.counterOutOfRange s.t)
  else none

/-- The output ports when the host drives `i` on `dsel`; none in a state whose outputs are unspecified (R34, R35, R195). -/
def State.outputsAt (s : State) (i : BitVec 3) : Option Outputs :=
  match s.refusal? with
  | some _ => none
  | none => some ⟨s.cmdReady, s.done, s.err, s.errCause.code, s.dout i⟩

/-- The output ports with the value now on `dsel` (R35). -/
def State.outputs (s : State) : Option Outputs := s.outputsAt s.dsel

end Sys2Proof.Machine
end

