-- ==== Sys2Proof/Machine/Operands.lean ====
section
/-! DEFINITION. How bytes sit in words: lanes, the block buffer as a byte store, `Words` and `BE64`
(00_scope.md R11; 20_memory.md R50, R53, R54). -/

namespace Sys2Proof.Machine

/-- Lane `k` of a word, `w[31-8k : 24-8k]`, for `k` in 0..3: lane 0 is the most significant byte (R50). -/
def laneOf (w : Word) (k : Nat) : Byte := w.extractLsb' (24 - 8 * k) 8

/-- The word with lane `k` replaced and its other 24 bits kept (R51). -/
def setLane (w : Word) (k : Nat) (v : Byte) : Word :=
  (w &&& ~~~((0xFF#32) <<< (24 - 8 * k))) ||| (v.setWidth 32 <<< (24 - 8 * k))

/-- `i >> 2`, the buffer word that holds byte `i`; of a bytes-used count this is `n[5:2]` (R50, R140). -/
def slotOf (i : BitVec 6) : Fin 16 := ⟨(i.extractLsb' 2 4).toNat, (i.extractLsb' 2 4).isLt⟩

/-- `i & 3`, the lane of byte `i` in its word; of a bytes-used count this is `n[1:0]` (R50, R140). -/
def laneIx (i : BitVec 6) : Nat := (i.extractLsb' 0 2).toNat

/-- `BufRead(i)` (R50). -/
def bufRead (B : Vector Word 16) (i : BitVec 6) : Byte := laneOf B[slotOf i] (laneIx i)

/-- `{p0, p1, p2, p3}`: four bytes as one big-endian word (R8, R53). -/
def packWord (p0 p1 p2 p3 : Byte) : Word := p0 ++ p1 ++ p2 ++ p3

/-- `Words(p)`: 64 bytes as sixteen big-endian words (R11, R53). -/
def wordsOf (p : Vector Byte 64) : Vector Word 16 :=
  Vector.ofFn fun j =>
    packWord (p[4 * j.val]'(by omega)) (p[4 * j.val + 1]'(by omega)) (p[4 * j.val + 2]'(by omega))
      (p[4 * j.val + 3]'(by omega))

/-- `BE64(v)[m] = v[63-8m : 56-8m]`, for `m` in 0..7 (R11). -/
def be64Byte (v : BitVec 64) (m : Nat) : Byte := v.extractLsb' (56 - 8 * m) 8

/-- `BE64(v)` (R11). -/
def be64 (v : BitVec 64) : Vector Byte 8 := Vector.ofFn fun m => be64Byte v m.val

end Sys2Proof.Machine
end

