-- ==== Sys2Proof/Machine/Ops.lean ====
section
/-! DEFINITION. The operations the commands share: writing the block buffer (20_memory.md R51), recording an error
(60_exceptions.md R263), starting a compression (42_compression.md R164) and writing what INIT and reset both write. -/

namespace Sys2Proof.Machine

/-- `BufWrite(i, v8)`: the lane of byte `i`, the word's other 24 bits unchanged (R51). -/
def bufWrite (B : Vector Word 16) (i : BitVec 6) (v : Byte) : Vector Word 16 :=
  B.set (slotOf i).val (setLane B[slotOf i] (laneIx i) v) (slotOf i).isLt

/-- `BufWriteFirst(i, v8)`: the whole word becomes `{v8, 0x000000}` (R51, R141). -/
def bufWriteFirst (B : Vector Word 16) (i : BitVec 6) (v : Byte) : Vector Word 16 :=
  B.set (slotOf i).val (packWord v 0 0 0) (slotOf i).isLt

/-- The buffer after ABSORB has put `v` at byte index `i`: a group's first byte overwrites its word (R51, R140, R141). -/
def bufAppend (B : Vector Word 16) (i : BitVec 6) (v : Byte) : Vector Word 16 :=
  if laneIx i = 0 then bufWriteFirst B i v else bufWrite B i v

/-- Causes that mark the run as misused: use after finalize, which the source calls undefined (R267, U1, U2). -/
def ErrCause.isMisuse : ErrCause → Bool
  | .absorbAfterFinal | .finalAfterFinal => true
  | .none | .reservedOp => false

/-- `raise Error(c)`: the first cause since reset or INIT is kept (R263), nothing else changes and nothing traps (R12, R262,
R266). The model's fault bit is set beside it for use after finalize (R267). -/
def raiseError (c : ErrCause) (s : State) : State :=
  { s with
    errCause := if s.errCause = .none then c else s.errCause
    misuse := s.misuse || c.isMisuse }

/-- `(a, ..., h) <- (H[0], ..., H[7])` (R162, R164). -/
def loadWorking (H : Vector Word 8) : Working := ⟨H[0], H[1], H[2], H[3], H[4], H[5], H[6], H[7]⟩

/-- `StartCompress(blk)`: part of the edge of the command that starts a compression (R164). -/
def startCompress (blk : Vector Word 16) (s : State) : State :=
  { s with Wwin := blk, work := loadWorking s.H, t := 0 }

/-- The register writes that INIT (R192) and reset (R290) share; `B`, `Wwin` and `a..h` are not written. -/
def writeInitial (s : State) : State :=
  { s with H := IV, n := 0, L := 0, t := 0, phase := .accept, errCause := .none }

end Sys2Proof.Machine
end

