-- ==== Sys2Proof/Machine/Engine.lean ====
section
/-! DEFINITION. The compression engine (42_compression.md): the compression as a pure function (R160 to R163) and the engine's
round and feed-forward edges (R165, R167). The trailer block (44_finalization.md R214) stands here because the feed-forward
edge of CMP_FIN1 loads it. -/

namespace Sys2Proof.Machine

/-- `Round(t, Wt, a..h)` (R163). -/
def round (t : Nat) (wt : Word) (w : Working) : Working :=
  let t1 := w.h + bigSigma1 w.e + ch w.e w.f w.g + K t + wt
  let t2 := bigSigma0 w.a + maj w.a w.b w.c
  ⟨t1 + t2, w.a, w.b, w.c, w.d + t1, w.e, w.f, w.g⟩

/-- `W[t]` for `t ≥ 16`, from the words before it (R161). -/
def scheduleNext (w2 w7 w15 w16 : Word) : Word := smallSigma1 w2 + w7 + smallSigma0 w15 + w16

/-- The first `16 + k` words of a message schedule (R161). -/
def scheduleWords (blk : Vector Word 16) : Nat → List Word
  | 0 => blk.toList
  | k + 1 =>
    let W := scheduleWords blk k
    W ++ [scheduleNext (W.getD (k + 14) 0) (W.getD (k + 9) 0) (W.getD (k + 1) 0) (W.getD k 0)]

/-- `Schedule(blk)`: `W[0..63]` (R161). -/
def schedule (blk : Vector Word 16) : List Word := scheduleWords blk 48

/-- The working registers after the first `k` rounds on the schedule `W` (R160). -/
def rounds (W : List Word) (w : Working) : Nat → Working
  | 0 => w
  | k + 1 => round k (W.getD k 0) (rounds W w k)

/-- `work[0..7] = (a, ..., h)` (R25). -/
def Working.toVector (w : Working) : Vector Word 8 := #v[w.a, w.b, w.c, w.d, w.e, w.f, w.g, w.h]

/-- The feed-forward sums `H[i] + work[i]` (R160, R167). -/
def feedForward (H : Vector Word 8) (w : Working) : Vector Word 8 :=
  Vector.ofFn fun i => H[i] + w.toVector[i]

/-- `Compress(Hin, blk)` (R160), which the engine's edges compute (R168). -/
def compress (Hin : Vector Word 8) (blk : Vector Word 16) : Vector Word 8 :=
  feedForward Hin (rounds (schedule blk) (loadWorking Hin) Config.rounds)

/-- `TrailerBlock(L)` (R214, R54). -/
def trailerBlock (L : BitVec 64) : Vector Word 16 :=
  #v[0, 0, 0, 0, 0, 0, 0, 0, 0, 0, 0, 0, 0, 0, L.extractLsb' 32 32, L.extractLsb' 0 32]

/-- The window moved on by one round, with the next schedule word at its end (R165). -/
def shiftWindow (w : Vector Word 16) : Vector Word 16 :=
  #v[w[1], w[2], w[3], w[4], w[5], w[6], w[7], w[8], w[9], w[10], w[11], w[12], w[13], w[14], w[15],
     scheduleNext w[14] w[9] w[1] w[0]]

/-- The round edge (R165). -/
def roundEdge (s : State) : State :=
  { s with
    work := round s.t.toNat s.Wwin[0] s.work
    Wwin := shiftWindow s.Wwin
    t := s.t + 1 }

/-- The feed-forward edge (R167). In CMP_FIN1 the second final compression starts from the sums just computed. -/
def feedForwardEdge (s : State) : State :=
  let Hn := feedForward s.H s.work
  match s.phase with
  | .cmpAbs => { s with H := Hn, t := 0, phase := .accept }
  | .cmpFin1 =>
    { s with H := Hn, t := 0, Wwin := trailerBlock s.L, work := loadWorking Hn, phase := .cmpFin2 }
  | .cmpFin2 => { s with H := Hn, t := 0, phase := .done }
  | .accept | .done | .unused5 | .unused6 | .unused7 => s

/-- The engine's step at an edge while a compression runs (R190); 65 of them from its start compute `compress` (R168). -/
def engineEdge (s : State) : State :=
  if s.t.toNat < Config.rounds then roundEdge s else feedForwardEdge s

/-- The edges of one compression, from the state its start leaves: 64 round edges and the feed-forward edge (R168, R169). They
write `Compress(H, Wwin)` to `H` (R168; `compressionEdges_H` in Laws/Engine.lean). -/
def compressionEdges (s : State) : State := feedForwardEdge (roundEdge^[64] s)

end Sys2Proof.Machine
end

