-- ==== Sys2Proof/Machine/Control.lean ====
section
/-! DEFINITION. Command acceptance, INIT, RSVD, the idle edge and reset (43_control.md; 70_reset_and_hazards.md R290). -/

namespace Sys2Proof.Machine

/-- An edge with `rst = 0` at which `effect` is what the presented command does (R190): it happens where `cmd_ready = 1`;
while a compression runs the command is ignored and the engine makes its step; the states that the spec gives no step are
refused (R195, R28). -/
def presentAtEdge (effect : State → State) (s : State) : Host.Outcome State Fault Refusal :=
  match s.refusal? with
  | some r => .refused r
  | none => .next (if s.cmdReady then effect s else engineEdge s)

/-- An edge with `rst = 0` and `cmd_valid = 0`: no register changes in ACCEPT and DONE (R196). -/
def idleEdge (s : State) : Host.Outcome State Fault Refusal := presentAtEdge id s

/-- An edge with `rst = 1`, from every state (R290). The model's fault bit goes with the abandoned run (log entry 4). -/
def resetEdge (s : State) : State := { writeInitial s with misuse := false }

/-- INIT's effect (R192). -/
def initEffect (s : State) : State := writeInitial s

/-- INIT presented at an edge; the data field is ignored (R192, R82). -/
def execInit (_data : Byte) (s : State) : Host.Outcome State Fault Refusal := presentAtEdge initEffect s

/-- RSVD's effect (R194). -/
def rsvdEffect (s : State) : State := raiseError .reservedOp s

/-- The reserved command presented at an edge; the data field is ignored (R194, R82). -/
def execRsvd (_data : Byte) (s : State) : Host.Outcome State Fault Refusal := presentAtEdge rsvdEffect s

end Sys2Proof.Machine
end

