-- ==== Sys2Proof/Machine/Buffer.lean ====
section
/-! DEFINITION. The block buffer controller: ABSORB (41_buffer.md R140 to R143). -/

namespace Sys2Proof.Machine

/-- ABSORB's effect (R140): discarded and recorded in DONE; in ACCEPT the byte goes to index `n`, `L` grows by 8, and the
byte that fills the block starts its compression (R143). -/
def absorbEffect (db : Byte) (s : State) : State :=
  if s.phase = .done then raiseError .absorbAfterFinal s
  else
    let B' := bufAppend s.B s.n db
    let s1 := { s with B := B', L := s.L + 8 }
    if s.n = 63 then startCompress B' { s1 with n := 0, phase := .cmpAbs }
    else { s1 with n := s.n + 1 }

/-- ABSORB presented at an edge (R140). -/
def execAbsorb (db : Byte) (s : State) : Host.Outcome State Fault Refusal := presentAtEdge (absorbEffect db) s

end Sys2Proof.Machine
end

