-- ==== Sys2Proof/Machine/Digest.lean ====
section
/-! DEFINITION. The digest output multiplexer: READ, and the host's rendering of the digest (45_digest_output.md). -/

namespace Sys2Proof.Machine

/-- READ i: the host drives `dsel = i`, so that `dout` shows `H[i]`; no register is written and no edge is needed (R240).
A state without an observation is refused (R195). -/
def execRead (i : BitVec 3) (s : State) : Host.Outcome State Fault Refusal :=
  match s.refusal? with
  | some r => .refused r
  | none => .next { s with dsel := i }

/-- The digest, where there is one: exactly when `done = 1` (R241). -/
def State.digest? (s : State) : Option (Vector Word 8) := if s.done then some s.H else none

/-- Digest byte `k`, for `k` in 0..31 (R55, R244). -/
def digestByte (H : Vector Word 8) (k : Fin 32) : Byte := laneOf (H[k.val / 4]'(by omega)) (k.val % 4)

/-- A lowercase hex digit (R244). -/
def hexDigit (d : BitVec 4) : Char :=
  if d.toNat < 10 then Char.ofNat (48 + d.toNat) else Char.ofNat (87 + d.toNat)

/-- The digest as 64 hex characters, word 0 first, most significant byte first (R242, R244). -/
def renderDigest (H : Vector Word 8) : List Char :=
  (List.finRange 32).flatMap fun k =>
    [hexDigit ((digestByte H k).extractLsb' 4 4), hexDigit ((digestByte H k).extractLsb' 0 4)]

end Sys2Proof.Machine
end

