-- ==== Sys2Proof/Machine/Finalization.lean ====
section
/-! DEFINITION. Finalisation: FINAL and the padded block (44_finalization.md R210 to R213). -/

namespace Sys2Proof.Machine

/-- `PadBytes(n, L)` over the buffer `B` (R211): the message bytes below `n`, the byte 0x80, zeros, and the length trailer in
bytes 56..63 when it fits (R212). -/
def padBytes (B : Vector Word 16) (n : BitVec 6) (L : BitVec 64) : Vector Byte 64 :=
  Vector.ofFn fun i =>
    if n.toNat < Config.padLimit ∧ Config.padLimit ≤ i.val then be64Byte L (i.val - Config.padLimit)
    else if i.val < n.toNat then bufRead B (BitVec.ofFin i)
    else if i.val = n.toNat then 0x80
    else 0x00

/-- FINAL's effect (R210): discarded and recorded in DONE; in ACCEPT the padded block is compressed, and a second block
follows when the trailer does not fit (R212). `L`, `B` and `H` are unchanged at this edge. -/
def finalEffect (s : State) : State :=
  if s.phase = .done then raiseError .finalAfterFinal s
  else
    startCompress (wordsOf (padBytes s.B s.n s.L))
      { s with n := 0, phase := if s.n.toNat < Config.padLimit then .cmpFin2 else .cmpFin1 }

/-- FINAL presented at an edge; the data field is ignored (R210, R82). -/
def execFinal (_data : Byte) (s : State) : Host.Outcome State Fault Refusal := presentAtEdge finalEffect s

end Sys2Proof.Machine
end

