-- ==== Sys2Proof/Machine/Dispatch.lean ====
section
/-! DEFINITION. One arm per instruction: the commands presented at an edge (43_control.md R190) and READ. -/

namespace Sys2Proof.Machine

def exec (i : Instr) (s : State) : Host.Outcome State Fault Refusal :=
  match i with
  | .init data => Sys2Proof.Machine.execInit data s
  | .absorb db => Sys2Proof.Machine.execAbsorb db s
  | .final data => Sys2Proof.Machine.execFinal data s
  | .rsvd data => Sys2Proof.Machine.execRsvd data s
  | .read k => Sys2Proof.Machine.execRead k s

end Sys2Proof.Machine
end

