-- ==== Sys2Proof/Machine/HostPort.lean ====
section
/-! DEFINITION. What the host does to the ports: one edge with given inputs (43_control.md R190), and the directives of a
program listing (30_encoding.md R87, R88; 70_reset_and_hazards.md R294). -/

namespace Sys2Proof.Machine

/-- One rising edge of `clk` with these values on `rst`, `cmd_valid` and `cmd` (R190). -/
def edge (rst valid : Bool) (cmd : BitVec 10) (s : State) : Host.Outcome State Fault Refusal :=
  if rst then .next (resetEdge s)
  else if valid then exec (decode (.cmd cmd)) s
  else idleEdge s

/-- A host action that needs no edge and drives nothing: it only looks at the outputs. A state without outputs is refused (R195). -/
def observeOnly (s : State) : Host.Outcome State Fault Refusal :=
  match s.refusal? with
  | some r => .refused r
  | none => .next s

/-- One step: what the host does next, and the edge that goes with it. The idle and reset edges carry 0 on `cmd`, which no
such edge reads (R196, U16). -/
def hostStep (s : State) : Host.Outcome State Fault Refusal :=
  match s.host with
  | [] => edge false false 0 s
  | .drive rst valid cmd :: rest => edge rst valid cmd { s with host := rest }
  | .issue cmd :: rest => edge false true cmd (if s.cmdReady then { s with host := rest } else s)
  | .reset :: rest => edge true false 0 { s with host := rest }
  | .idle 0 :: rest => observeOnly { s with host := rest }
  | .idle (k + 1) :: rest => edge false false 0 { s with host := .idle k :: rest }
  | .waitReady :: rest => if s.cmdReady then observeOnly { s with host := rest } else edge false false 0 s
  | .waitDone :: rest => if s.done then observeOnly { s with host := rest } else edge false false 0 s
  | .read i :: rest => exec (decode (.dsel i)) { s with host := rest }

/-- The host directive that asks for an instruction: a command word to hold until accepted, or a select value (R87, R88). -/
def directiveOf : PortWord → Directive
  | .cmd w => .issue w
  | .dsel i => .read i

/-- The values on `rst`, `cmd_valid` and `cmd` at each of a run of edges, whatever the host's directives. -/
def runEdges : List (Bool × Bool × BitVec 10) → State → Host.Outcome State Fault Refusal
  | [], s => .next s
  | (rst, valid, cmd) :: ins, s =>
    match edge rst valid cmd s with
    | .next s' => runEdges ins s'
    | .fault r => .fault r
    | .refused r => .refused r

end Sys2Proof.Machine
end

