-- ==== Sys2Proof/Machine/Step.lean ====
section
/-! DEFINITION. The step of the model: one thing the host does, with at most one rising edge of `clk` (R14, R190). -/

namespace Sys2Proof.Machine

/-- One step (10_state.md R33; 43_control.md R190). -/
def step (s : State) : Host.Outcome State Fault Refusal := hostStep s

/-- The state in which the host's next act is to present this word: a step "fetches" from the head of `host` (log entry 3). -/
def State.withFetchWord (s : State) (nbits w : Nat) : State :=
  match portWordOf nbits w with
  | .ok p => { s with host := directiveOf p :: s.host }
  | .error _ => s

end Sys2Proof.Machine
end

