-- ==== Sys2Proof/WellFormed.lean ====
section
/-! DEFINITION. Which operand values are legal: every value of an `Instr` (its field types are the port widths), and the
range checks of the assembler's operands, which are written as plain numbers (30_encoding.md R85 to R89). -/

namespace Sys2Proof

/-- Every instruction is well formed: none of the `data` values is reserved (R82), every byte is a message byte (R140) and
all eight values of `dsel` are legal (R85). -/
def Instr.wellFormed : Instr → Bool
  | .init _ => true
  | .absorb _ => true
  | .final _ => true
  | .rsvd _ => true
  | .read _ => true

/-- The form the assembler writes: INIT and FINAL with the data field 0 (R82, R87). -/
def Instr.assemblerForm : Instr → Bool
  | .init data => data == 0
  | .absorb _ => true
  | .final data => data == 0
  | .rsvd _ => true
  | .read _ => true

/-- One line of a program listing, operands as written: commands (R87), host directives (R88), pseudo-instructions (R89). -/
inductive SourceLine where
  | init
  | absorb (imm : Nat)
  | final
  | rsvd (imm : Nat)
  | reset
  | idle (k : Nat)
  | waitReady
  | waitDone
  | read (i : Nat)
  | update (bytes : List Nat)
  | digest
  | hash (bytes : List Nat)
  deriving DecidableEq, Repr

/-- `imm8` is an unsigned integer 0..255 (R86); a digest word index is 0..7 (R85). -/
def SourceLine.wellFormed : SourceLine → Bool
  | .init => true
  | .absorb imm => decide (imm < 256)
  | .final => true
  | .rsvd imm => decide (imm < 256)
  | .reset => true
  | .idle _ => true
  | .waitReady => true
  | .waitDone => true
  | .read i => decide (i < 8)
  | .update bytes => bytes.all fun b => decide (b < 256)
  | .digest => true
  | .hash bytes => bytes.all fun b => decide (b < 256)

end Sys2Proof
end

