-- ==== Sys2Proof/Machine/Assembler.lean ====
section
/-! DEFINITION. The assembler: what each line of a listing makes the host do, and reading a line's text
(30_encoding.md R86 to R89). -/

namespace Sys2Proof.Machine

/-- The directive that presents an instruction's word or drives its select value (R87, R88). -/
def directiveFor (i : Instr) : Directive := directiveOf (encode i)

/-- `UPDATE b0, ..., bk-1`: one ABSORB a byte (R89). -/
def updateDirectives (bytes : List Byte) : List Directive := bytes.map fun b => directiveFor (.absorb b)

/-- `DIGEST`: `WAIT_DONE`, then `READ 0` to `READ 7` (R89). -/
def digestDirectives : List Directive :=
  .waitDone :: (List.finRange 8).map fun i => directiveFor (.read (BitVec.ofFin i))

/-- `HASH b0, ..., bk-1`: `INIT`, `UPDATE`, `FINAL`, `DIGEST` (R89). -/
def hashDirectives (bytes : List Byte) : List Directive :=
  directiveFor (.init 0) :: updateDirectives bytes ++ directiveFor (.final 0) :: digestDirectives

/-- The bytes of numbers that are known to be bytes. -/
def bytesOf (bytes : List Nat) : List Byte := bytes.map (BitVec.ofNat 8)

/-- A line's expansion (R87 to R89); none where an operand is out of range (R86, R85). -/
def assembleLine (l : SourceLine) : Option (List Directive) :=
  if l.wellFormed then
    some <|
      match l with
      | .init => [directiveFor (.init 0)]
      | .absorb imm => [directiveFor (.absorb (BitVec.ofNat 8 imm))]
      | .final => [directiveFor (.final 0)]
      | .rsvd imm => [directiveFor (.rsvd (BitVec.ofNat 8 imm))]
      | .reset => [.reset]
      | .idle k => [.idle k]
      | .waitReady => [.waitReady]
      | .waitDone => [.waitDone]
      | .read i => [directiveFor (.read (BitVec.ofNat 3 i))]
      | .update bytes => updateDirectives (bytesOf bytes)
      | .digest => digestDirectives
      | .hash bytes => hashDirectives (bytesOf bytes)
  else none

/-- A listing's expansion, line after line. -/
def assemble : List SourceLine → Option (List Directive)
  | [] => some []
  | l :: ls =>
    match assembleLine l, assemble ls with
    | some ds, some rest => some (ds ++ rest)
    | _, _ => none

/-- The piece of a line that the reader is in: a bare word, a text in double quotes, or a character literal. -/
inductive LexMode where
  | word (soFar : List Char)
  | text (soFar : List Char)
  | literal (soFar : List Char)
  deriving DecidableEq, Repr

/-- A piece of a line: a bare word, the ASCII codes that a text in double quotes stands for (R89), or the code that a character
literal stands for (R86). -/
inductive Token where
  | word (chars : List Char)
  | text (codes : List Nat)
  | literal (code : Nat)
  deriving DecidableEq, Repr

/-- A bare word, if there is one, in front of the tokens that follow. -/
def pushWord (soFar : List Char) (rest : List Token) : List Token :=
  if soFar.isEmpty then rest else .word soFar.reverse :: rest

/-- The ASCII code of each character; none where a character is not ASCII (R86). -/
def asciiCodes : List Char → Option (List Nat)
  | [] => some []
  | c :: cs => if c.toNat < 128 then (asciiCodes cs).map (c.toNat :: ·) else none

/-- The tokens of a line, up to its comment (R86 to R89). Words are parted by spaces and commas, and a quote begins and ends
a token of its own, so that `'a'5` is two operands (DESIGN CHOICE, log entry 14). -/
def lexLine : LexMode → List Char → Option (List Token)
  | .word w, [] => some (pushWord w [])
  | .text _, [] => none
  | .literal _, [] => none
  | .word w, c :: cs =>
    if c = ';' then some (pushWord w [])
    else if c = ' ' ∨ c = ',' then (lexLine (.word []) cs).map (pushWord w)
    else if c = '"' then (lexLine (.text []) cs).map (pushWord w)
    else if c = '\'' then (lexLine (.literal []) cs).map (pushWord w)
    else lexLine (.word (c :: w)) cs
  | .text s, c :: cs =>
    if c = '"' then
      match asciiCodes s.reverse, lexLine (.word []) cs with
      | some codes, some rest => some (.text codes :: rest)
      | _, _ => none
    else lexLine (.text (c :: s)) cs
  | .literal s, c :: cs =>
    if c = '\'' ∧ s.length = 1 then
      match asciiCodes s, lexLine (.word []) cs with
      | some [code], some rest => some (.literal code :: rest)
      | _, _ => none
    else lexLine (.literal (c :: s)) cs

/-- The value of a digit in base `base`; hexadecimal letters in either case (DESIGN CHOICE, log entry 14). -/
def digitValue (base : Nat) (c : Char) : Option Nat :=
  let v :=
    if '0' ≤ c ∧ c ≤ '9' then c.toNat - 48
    else if 'a' ≤ c ∧ c ≤ 'f' then c.toNat - 87
    else if 'A' ≤ c ∧ c ≤ 'F' then c.toNat - 55
    else 99
  if v < base then some v else none

/-- A number in base `base`, from what has been read so far. -/
def readDigits (base : Nat) : Nat → List Char → Option Nat
  | acc, [] => some acc
  | acc, c :: cs =>
    match digitValue base c with
    | some v => readDigits base (base * acc + v) cs
    | none => none

/-- An unsigned number, decimal or `0x` hexadecimal (R86). READ's index and IDLE's count are read alike (DESIGN CHOICE, log
entry 14). -/
def readNumber : List Char → Option Nat
  | [] => none
  | '0' :: 'x' :: c :: cs => readDigits 16 0 (c :: cs)
  | c :: cs => readDigits 10 0 (c :: cs)

/-- An operand as a number: a number or a character literal (R86), and never a quoted text. -/
def readNumberToken : Token → Option Nat
  | .word w => readNumber w
  | .literal code => some code
  | .text _ => none

/-- The operands of a line as numbers. -/
def readNumbers : List Token → Option (List Nat)
  | [] => some []
  | t :: ts =>
    match readNumberToken t, readNumbers ts with
    | some v, some vs => some (v :: vs)
    | _, _ => none

/-- The operands of UPDATE and HASH: bytes as numbers, or one quoted text and nothing beside it (R89). -/
def readBytes : List Token → Option (List Nat)
  | [.text codes] => some codes
  | ts => readNumbers ts

/-- The mnemonics whose operand may be a quoted text. R89 gives the form for UPDATE; HASH is read alike because the spec's own
listings write `HASH "abc"` (R240, vector X1; DEDUCED, log entry 17). -/
def takesText (mnemonic : List Char) : Bool := mnemonic == "UPDATE".toList || mnemonic == "HASH".toList

/-- The operands that follow a mnemonic (R86 to R89). A quoted text where the spec gives a number or no operand, or beside numbers,
is refused (DESIGN CHOICE, log entry 14). -/
def readOperands (mnemonic : List Char) (ts : List Token) : Option (List Nat) :=
  if takesText mnemonic then readBytes ts else readNumbers ts

/-- A mnemonic and its operands as a line of the listing (R87 to R89). -/
def lineOf (mnemonic : List Char) (operands : List Nat) : Option SourceLine :=
  match String.ofList mnemonic, operands with
  | "INIT", [] => some .init
  | "ABSORB", [b] => some (.absorb b)
  | "FINAL", [] => some .final
  | "RSVD", [b] => some (.rsvd b)
  | "RESET", [] => some .reset
  | "IDLE", [k] => some (.idle k)
  | "WAIT_READY", [] => some .waitReady
  | "WAIT_DONE", [] => some .waitDone
  | "READ", [i] => some (.read i)
  | "UPDATE", bs => some (.update bs)
  | "DIGEST", [] => some .digest
  | "HASH", bs => some (.hash bs)
  | _, _ => none

/-- The line that a text stands for; none where the text is no line of the assembler (R86 to R89). -/
def parseLine (text : String) : Option SourceLine :=
  match lexLine (.word []) text.toList with
  | some (.word m :: operands) => (readOperands m operands).bind (lineOf m)
  | _ => none

end Sys2Proof.Machine
end

