-- ==== Sys2Proof/Machine/Instances.lean ====
section
/-! DEFINITION. Several instances side by side (10_state.md R37; 60_exceptions.md R272): each has its own state, and an edge of
one touches no other. -/

namespace Sys2Proof.Machine

/-- The instances of one system, each with the whole state of R20 to itself (R37). -/
abbrev System := List State

/-- Instance `k` makes one step; the others keep their states (R37, R272). None where there is no instance `k`. -/
def stepAt (sys : System) (k : Nat) : Option (Host.Outcome System Fault Refusal) :=
  match sys[k]? with
  | none => none
  | some s =>
    match step s with
    | .next s' => some (.next (sys.set k s'))
    | .fault r => some (.fault r)
    | .refused r => some (.refused r)

end Sys2Proof.Machine
end

