-- ==== Sys2Proof/Machine/Reference.lean ====
section
/-! DEFINITION. What the rules say of whole messages and whole edges, apart from the machine that does it: the padded message
and its digest (44_finalization.md R216 over 42_compression.md R160), the table of phase transitions (10_state.md R31) and the
busy and total times (70_reset_and_hazards.md R296, R299). -/

namespace Sys2Proof.Machine

/-- `z`, the number of zero bytes between 0x80 and the trailer, for a message of `N` bytes (R216). -/
def padZeros (N : Nat) : Nat := (119 - N % 64) % 64

/-- The message, the byte 0x80, `z` zero bytes and `BE64(8N mod 2^64)` (R216). -/
def paddedMessage (msg : List Byte) : List Byte :=
  msg ++ [0x80] ++ List.replicate (padZeros msg.length) 0 ++ (be64 (BitVec.ofNat 64 (8 * msg.length))).toList

/-- Bytes `64q .. 64q+63` of a byte sequence, as one block (R14, R53). -/
def blockAt (bytes : List Byte) (q : Nat) : Vector Word 16 :=
  wordsOf (Vector.ofFn fun j => bytes.getD (64 * q + j.val) 0)

/-- The chaining value after the first `q` blocks of a byte sequence, from the initial vector (R14, R160, R162). -/
def chainingValue (bytes : List Byte) : Nat → Vector Word 8
  | 0 => IV
  | q + 1 => compress (chainingValue bytes q) (blockAt bytes q)

/-- The digest of a message: every block of the padded message compressed in order (R216, R217). -/
def digestOf (msg : List Byte) : Vector Word 8 :=
  chainingValue (paddedMessage msg) ((paddedMessage msg).length / 64)

/-- Compressions that FINAL performs for a message of `N` bytes (R215). -/
def finalCompressions (N : Nat) : Nat := if N % 64 < Config.padLimit then 1 else 2

/-- `edges(N)`: from the edge after reset or INIT to the edge at which `done` becomes 1 (R299). -/
def edgesOf (N : Nat) : Nat :=
  N + Config.compressCycles * (N / 64) + 1 + Config.compressCycles * finalCompressions N

/-- Cycles with `cmd_ready = 0` after the edge that accepts a command in state `s` (the table of R296). -/
def busyCycles (i : Instr) (s : State) : Nat :=
  match i with
  | .init _ => 0
  | .absorb _ => if s.phase = .accept ∧ s.n = 63 then 65 else 0
  | .final _ => if s.phase = .accept then (if s.n.toNat ≤ 55 then 65 else 130) else 0
  | .rsvd _ => 0
  | .read _ => 0

/-- The phase after a command is accepted in ACCEPT with `n` bytes in the buffer (the table of R31). -/
def phaseAfterCommand (i : Instr) (n : BitVec 6) : Phase :=
  match i with
  | .init _ => .accept
  | .absorb _ => if n.toNat < 63 then .accept else .cmpAbs
  | .final _ => if n.toNat ≤ 55 then .cmpFin2 else .cmpFin1
  | .rsvd _ => .accept
  | .read _ => .accept

/-- The phase after an edge with these inputs, row by row of the transition table (R31). -/
def phaseAfterEdge (rst valid : Bool) (cmd : BitVec 10) (s : State) : Phase :=
  if rst then .accept
  else
    match s.phase with
    | .accept => if valid then phaseAfterCommand (decode (.cmd cmd)) s.n else .accept
    | .cmpAbs => if s.t.toNat < 64 then .cmpAbs else .accept
    | .cmpFin1 => if s.t.toNat < 64 then .cmpFin1 else .cmpFin2
    | .cmpFin2 => if s.t.toNat < 64 then .cmpFin2 else .done
    | .done =>
      match valid, decode (.cmd cmd) with
      | true, .init _ => .accept
      | _, _ => .done
    | .unused5 => .unused5
    | .unused6 => .unused6
    | .unused7 => .unused7

/-- The first cause recorded is kept (R263). -/
def recordFirst (old new : ErrCause) : ErrCause := if old = .none then new else old

/-- The error cause after a command is accepted in state `s` (the table of R261, with R263 and R265). -/
def causeAfterCommand (i : Instr) (s : State) : ErrCause :=
  match i with
  | .init _ => .none
  | .absorb _ => if s.phase = .done then recordFirst s.errCause .absorbAfterFinal else s.errCause
  | .final _ => if s.phase = .done then recordFirst s.errCause .finalAfterFinal else s.errCause
  | .rsvd _ => recordFirst s.errCause .reservedOp
  | .read _ => s.errCause

end Sys2Proof.Machine
end

