-- ==== Sys2Proof/Safety.lean ====
section
/-! DEFINITION. What a legal state, a good state and a correct run are, in the terms the statements use. -/

namespace Sys2Proof.Machine

/-- A state to which the spec gives a step: a used phase code and `t` in 0..64 (R195, R28). -/
abbrev State.Legal (s : State) : Prop := s.phase.used = true ∧ s.t.toNat ≤ 64

/-- A legal state in which a command is accepted (R14, R190). -/
abbrev State.Ready (s : State) : Prop := s.Legal ∧ s.cmdReady = true

/-- The invariants of R36. Its first, `0 <= n <= 63`, is the width of `n`. Its seventh is widened to CMP_ABS, where `n = 0` and
the block just filled is counted (DEDUCED, log entry 6): without it the feed-forward edge would not keep the seventh. -/
structure State.Inv (s : State) : Prop where
  phaseUsed : s.phase.used = true
  idleCounter : s.phase = .accept ∨ s.phase = .done → s.t = 0
  busyCounter : s.phase.compressing = true → s.t.toNat ≤ 64
  countZero : s.phase ≠ .accept → s.n = 0
  lengthBytes : s.L.toNat % 8 = 0
  lengthCount : s.phase = .accept ∨ s.phase = .cmpAbs → s.L.toNat % 512 = 8 * s.n.toNat

/-- `s` is absorbing and has taken in exactly the message `msg` since INIT or reset: the full blocks are compressed into `H`,
the rest is in the buffer, `n` and `L` count it (R14, R22 to R24, R36). -/
structure State.Absorbed (s : State) (msg : List Byte) : Prop where
  accept : s.phase = .accept
  counter : s.t = 0
  digest : s.H = chainingValue msg (msg.length / 64)
  count : s.n.toNat = msg.length % 64
  length : s.L = BitVec.ofNat 64 (8 * msg.length)
  buffer : ∀ i : BitVec 6, i.toNat < s.n.toNat → bufRead s.B i = msg.getD (64 * (msg.length / 64) + i.toNat) 0

/-- The values on `rst`, `cmd_valid` and `cmd` at one edge. -/
abbrev EdgeInputs := Bool × Bool × BitVec 10

/-- No edge of the run has `rst = 1`. -/
abbrev NoReset (ins : List EdgeInputs) : Prop := ∀ x ∈ ins, x.1 = false

/-- The output ports along a run of edges, for every value of `dsel`, before the first edge and after each (R35). -/
def portTrace : List EdgeInputs → State → BitVec 3 → List (Option Outputs)
  | [], s, i => [s.outputsAt i]
  | (rst, valid, cmd) :: ins, s, i =>
    s.outputsAt i ::
      match edge rst valid cmd s with
      | .next s' => portTrace ins s' i
      | .fault _ => []
      | .refused _ => []

end Sys2Proof.Machine
end

