-- ==== Sys2Proof/Certificates/Slice0/Obligations.lean ====
section
/-! DEFINITION. The statements for the provers. Each docstring names the rules of spec/ it formalises.
`dsel` as a field, `host` with the way a step is cut from the host's acts, and `misuse` are the model's own (log entries 2, 3
and 4); where a statement mentions them it says that they are unchanged, or that it is about them. A clause that rests on
another log entry names the entry. -/

open Sys2Proof Sys2Proof.Machine

/-! ### Encoding (30_encoding.md) -/

/-- Command words and select values written out from R80, R81, R85 and the listings of 95_test_vectors.md decode to the
operations they stand for. The last line is the model's choice, log entry 8: how a number of the opcode table is laid on the
ports, and that bits a port lacks are refused. -/
def Obligations.SampleWordsDecode : Prop :=
  decode (.cmd 0b00_00000000#10) = .init 0 ∧ decode (.cmd 0b01_10111110#10) = .absorb 0xBE ∧
    decode (.cmd 0b10_00000000#10) = .final 0 ∧ decode (.cmd 0b11_10101010#10) = .rsvd 0xAA ∧
    decode (.dsel 0b101#3) = .read 5 ∧
    decodeTableWord 16 0x161 = some (.absorb 0x61) ∧ decodeTableWord 16 0x400 = none ∧ decodeTableWord 8 8 = none

/-- R83: decoding is the case split on `op`, and every one of the 1024 words is one of the four cases. -/
def Obligations.CommandWordDecodesByOpField : Prop :=
  (∀ data : Byte,
    decode (.cmd (0b00#2 ++ data)) = .init data ∧ decode (.cmd (0b01#2 ++ data)) = .absorb data ∧
      decode (.cmd (0b10#2 ++ data)) = .final data ∧ decode (.cmd (0b11#2 ++ data)) = .rsvd data) ∧
    ∀ w : BitVec 10, ∃ (op : BitVec 2) (data : Byte), w = op ++ data

/-- Decode and encode agree in both directions, on every instruction and every port word, and through the numbering of the
opcode table. The fields and codes are those of R80 to R85. That the second clause holds on INIT and FINAL words with a data
field other than 0 rests on log entry 16 (the constructors keep the ignored field; R87's assembler writes 0 there), and the
third clause rests on log entry 8 (the numbering). -/
def Obligations.DecodeEncodeAgree : Prop :=
  (∀ i : Instr, decode (encode i) = i) ∧ (∀ p : PortWord, encode (decode p) = p) ∧
    ∀ i : Instr, decodeTableWord (tableBits (encode i)) (tableNumber (encode i)) = some i

/-- R82: INIT, FINAL and RSVD do the same whatever their data field holds, in every state. -/
def Obligations.DataFieldIgnored : Prop :=
  ∀ (data data' : Byte) (s : State),
    exec (.init data) s = exec (.init data') s ∧ exec (.final data) s = exec (.final data') s ∧
      exec (.rsvd data) s = exec (.rsvd data') s

/-! ### Constants and word functions (40_functions.md) -/

/-- R102: `K[k]` is the integer cube root of `p_k * 2^96` and `IV[i]` the integer square root of `p_i * 2^64`, each modulo
2^32, with `p_k` the k-th prime. -/
def Obligations.ConstantTablesAreRootsOfPrimes : Prop :=
  (∀ k : Nat, k < 64 → ∃ r : Nat,
    r ^ 3 ≤ Nat.nth Nat.Prime k * 2 ^ 96 ∧ Nat.nth Nat.Prime k * 2 ^ 96 < (r + 1) ^ 3 ∧ (K k).toNat = r % 2 ^ 32) ∧
    ∀ i : Fin 8, ∃ r : Nat,
      r ^ 2 ≤ Nat.nth Nat.Prime i * 2 ^ 64 ∧ Nat.nth Nat.Prime i * 2 ^ 64 < (r + 1) ^ 2 ∧ IV[i].toNat = r % 2 ^ 32

/-- R103 and R104: bit `i` of a rotation right by `n` is bit `(i + n) mod 32`, and a right shift is division by `2^n`. -/
def Obligations.RotateAndShiftMoveBits : Prop :=
  (∀ (x : Word) (n i : Nat), 0 < n → n < 32 → i < 32 → (rotr x n).getLsbD i = x.getLsbD ((i + n) % 32)) ∧
    ∀ (x : Word) (n : Nat), (shr x n).toNat = x.toNat / 2 ^ n

/-- R105 and R106, bit by bit: Choose takes the `y` bit where the `x` bit is 1 and the `z` bit where it is 0, and may be
written with OR or with exclusive or; Majority is 1 where at least two of the three bits are. -/
def Obligations.ChooseAndMajorityBitwise : Prop :=
  (∀ (x y z : Word) (i : Nat),
    (ch x y z).getLsbD i = (if x.getLsbD i then y.getLsbD i else decide (i < 32) && z.getLsbD i) ∧
      (maj x y z).getLsbD i =
        ((x.getLsbD i && y.getLsbD i) || (y.getLsbD i && z.getLsbD i) || (z.getLsbD i && x.getLsbD i))) ∧
    (∀ x y z : Word, ch x y z = (x &&& y) ||| (~~~x &&& z)) ∧
    (∀ x y z : Word, ch x y z = (x &&& y) ^^^ (~~~x &&& z)) ∧
    (∀ x y z : Word, maj x y z = (x &&& y) ^^^ (y &&& z) ^^^ (z &&& x)) ∧
    ch 0xFF00FF00 0x12345678 0x9ABCDEF0 = 0x12BC56F0 ∧ maj 0xFF00FF00 0x12345678 0x9ABCDEF0 = 0x9A34DE70

/-- R107 to R110: the four sigma functions, by their rotations and shifts, with the examples of the rules. -/
def Obligations.SigmaFunctions : Prop :=
  (∀ x : Word,
    bigSigma0 x = rotr x 2 ^^^ rotr x 13 ^^^ rotr x 22 ∧ bigSigma1 x = rotr x 6 ^^^ rotr x 11 ^^^ rotr x 25 ∧
      smallSigma0 x = rotr x 7 ^^^ rotr x 18 ^^^ shr x 3 ∧ smallSigma1 x = rotr x 17 ^^^ rotr x 19 ^^^ shr x 10) ∧
    bigSigma0 0x6A09E667 = 0xCE20B47E ∧ bigSigma1 0x510E527F = 0x3587272B ∧
    smallSigma0 0xFFFFFFFF = 0x1FFFFFFF ∧ smallSigma1 0xFFFFFFFF = 0x003FFFFF

/-! ### The block buffer (20_memory.md, 41_buffer.md) -/

/-- R53: the buffer and the schedule use the same mapping: packing the buffer's 64 bytes gives its sixteen words, and byte `i`
of a packed block is the block's byte `i`. -/
def Obligations.BufferBytesAndWordsAgree : Prop :=
  (∀ B : Vector Word 16, wordsOf (Vector.ofFn fun i => bufRead B (BitVec.ofFin i)) = B) ∧
    ∀ (p : Vector Byte 64) (i : BitVec 6), bufRead (wordsOf p) i = p[i.toNat]

/-- R140 with R141 and R142: ABSORB in ACCEPT with `n < 63` completes; it puts the byte at index `n`, clears the rest of a
group it begins, counts the byte in `n` and `L`, and changes nothing else. -/
def Obligations.AbsorbAppendsOneByte : Prop :=
  ∀ (db : Byte) (s : State), s.Legal → s.phase = .accept → s.n.toNat < 63 →
    ∃ s' : State, exec (.absorb db) s = .next s' ∧ s'.n.toNat = s.n.toNat + 1 ∧ s'.L = s.L + 8 ∧
      (∀ i : BitVec 6, bufRead s'.B i =
        if i.toNat = s.n.toNat then db
        else if s.n.toNat % 4 = 0 ∧ i.toNat / 4 = s.n.toNat / 4 then 0
        else bufRead s.B i) ∧
      s'.H = s.H ∧ s'.work = s.work ∧ s'.Wwin = s.Wwin ∧ s'.t = s.t ∧ s'.phase = .accept ∧ s'.errCause = s.errCause ∧
      s'.dsel = s.dsel ∧ s'.misuse = s.misuse ∧ s'.host = s.host

/-- R143 with R164: ABSORB in ACCEPT with `n = 63` completes; it stores the byte, sets `n` to 0, and starts the compression of
the full block, the byte just written included; `H` and the rest are unchanged. -/
def Obligations.AbsorbFillsBlockAndStarts : Prop :=
  ∀ (db : Byte) (s : State), s.Legal → s.phase = .accept → s.n = 63 →
    ∃ s' : State, exec (.absorb db) s = .next s' ∧ s'.n = 0 ∧ s'.L = s.L + 8 ∧
      (∀ i : BitVec 6, bufRead s'.B i = if i.toNat = 63 then db else bufRead s.B i) ∧
      s'.phase = .cmpAbs ∧ s'.t = 0 ∧ s'.Wwin = s'.B ∧
      s'.work = ⟨s.H[0], s.H[1], s.H[2], s.H[3], s.H[4], s.H[5], s.H[6], s.H[7]⟩ ∧
      s'.H = s.H ∧ s'.errCause = s.errCause ∧ s'.dsel = s.dsel ∧ s'.misuse = s.misuse ∧ s'.host = s.host

/-- R262 with R261 and R263: ABSORB or FINAL accepted in DONE records its cause if it is the first, and changes no register
else. That it also sets the model's fault bit is R267, log entry 4. -/
def Obligations.UseAfterFinalizeOnlyRecords : Prop :=
  ∀ (data : Byte) (s : State), s.Legal → s.phase = .done →
    exec (.absorb data) s = .next
        { s with errCause := if s.errCause = .none then .absorbAfterFinal else s.errCause, misuse := true } ∧
      exec (.final data) s = .next
        { s with errCause := if s.errCause = .none then .finalAfterFinal else s.errCause, misuse := true }

/-! ### The compression engine (42_compression.md) -/

/-- R161: the schedule has 64 words, the first sixteen are the block's, and each later one follows the recurrence; with the
rule's example, the block of "abc". -/
def Obligations.ScheduleFollowsRecurrence : Prop :=
  (∀ blk : Vector Word 16, (schedule blk).length = 64 ∧
    (∀ j : Fin 16, (schedule blk)[j.val]? = some blk[j]) ∧
    ∀ t : Nat, 16 ≤ t → t < 64 →
      (schedule blk).getD t 0 =
        smallSigma1 ((schedule blk).getD (t - 2) 0) + (schedule blk).getD (t - 7) 0 +
          smallSigma0 ((schedule blk).getD (t - 15) 0) + (schedule blk).getD (t - 16) 0) ∧
    let W := schedule #v[0x61626380, 0, 0, 0, 0, 0, 0, 0, 0, 0, 0, 0, 0, 0, 0, 0x00000018]
    W[16]? = some 0x61626380 ∧ W[17]? = some 0x000F0000 ∧ W[18]? = some 0x7DA86405 ∧ W[19]? = some 0x600003C6 ∧
      W[63]? = some 0x12B1EDEB

/-- R165: the round edge, whatever the command inputs, with everything it leaves unchanged. -/
def Obligations.RoundEdgeFollowsRule : Prop :=
  ∀ (valid : Bool) (cmd : BitVec 10) (s : State), s.phase.compressing = true → s.t.toNat < 64 →
    ∃ s' : State, edge false valid cmd s = .next s' ∧ s'.t.toNat = s.t.toNat + 1 ∧
      (∀ i : Nat, (h : i < 15) → s'.Wwin[i] = s.Wwin[i + 1]) ∧
      s'.Wwin[15] = smallSigma1 s.Wwin[14] + s.Wwin[9] + smallSigma0 s.Wwin[1] + s.Wwin[0] ∧
      (let t1 := s.work.h + bigSigma1 s.work.e + ch s.work.e s.work.f s.work.g + K s.t.toNat + s.Wwin[0]
       let t2 := bigSigma0 s.work.a + maj s.work.a s.work.b s.work.c
       s'.work = ⟨t1 + t2, s.work.a, s.work.b, s.work.c, s.work.d + t1, s.work.e, s.work.f, s.work.g⟩) ∧
      s'.H = s.H ∧ s'.B = s.B ∧ s'.n = s.n ∧ s'.L = s.L ∧ s'.phase = s.phase ∧ s'.errCause = s.errCause ∧
      s'.dsel = s.dsel ∧ s'.misuse = s.misuse ∧ s'.host = s.host

/-- R167: the feed-forward edge, whatever the command inputs: the sums go to `H`, `t` to 0, and the phase on; in CMP_FIN1 the
trailer block and the new chaining value start the second compression; nothing else changes. -/
def Obligations.FeedForwardEdgeFollowsRule : Prop :=
  ∀ (valid : Bool) (cmd : BitVec 10) (s : State), s.phase.compressing = true → s.t = 64 →
    ∃ s' : State, edge false valid cmd s = .next s' ∧ s'.t = 0 ∧
      s'.H = #v[s.H[0] + s.work.a, s.H[1] + s.work.b, s.H[2] + s.work.c, s.H[3] + s.work.d,
        s.H[4] + s.work.e, s.H[5] + s.work.f, s.H[6] + s.work.g, s.H[7] + s.work.h] ∧
      (s.phase = .cmpAbs → s'.phase = .accept ∧ s'.Wwin = s.Wwin ∧ s'.work = s.work) ∧
      (s.phase = .cmpFin1 → s'.phase = .cmpFin2 ∧ s'.Wwin = trailerBlock s.L ∧
        s'.work = ⟨s'.H[0], s'.H[1], s'.H[2], s'.H[3], s'.H[4], s'.H[5], s'.H[6], s'.H[7]⟩) ∧
      (s.phase = .cmpFin2 → s'.phase = .done ∧ s'.Wwin = s.Wwin ∧ s'.work = s.work) ∧
      s'.B = s.B ∧ s'.n = s.n ∧ s'.L = s.L ∧ s'.errCause = s.errCause ∧
      s'.dsel = s.dsel ∧ s'.misuse = s.misuse ∧ s'.host = s.host

/-- R166: after `k` edges of a compression, whatever the command inputs, `Wwin[i]` is schedule word `W[k + i]` as long as
`k + i ≤ 63`; `H` keeps the chaining value and `cmd_ready` is 0. -/
def Obligations.WindowHoldsSchedule : Prop :=
  ∀ (ins : List EdgeInputs) (s : State), NoReset ins → ins.length ≤ 64 → s.phase.compressing = true → s.t = 0 →
    ∃ s' : State, runEdges ins s = .next s' ∧ s'.t.toNat = ins.length ∧ s'.H = s.H ∧ s'.cmdReady = false ∧
      ∀ i : Nat, (h : i < 16) → ins.length + i ≤ 63 →
        (schedule s.Wwin)[ins.length + i]? = some s'.Wwin[i]

/-- R168 with R169: 65 edges after its start, whatever the command inputs, a compression has written `Compress(H, blk)` to `H`
and moved the phase on, and has left the buffer, the counters and the error cause alone. -/
def Obligations.EngineComputesCompress : Prop :=
  ∀ (ins : List EdgeInputs) (s : State), NoReset ins → ins.length = 65 → s.phase.compressing = true → s.t = 0 →
    s.work = ⟨s.H[0], s.H[1], s.H[2], s.H[3], s.H[4], s.H[5], s.H[6], s.H[7]⟩ →
    ∃ s' : State, runEdges ins s = .next s' ∧ s'.H = compress s.H s.Wwin ∧ s'.t = 0 ∧
      (s.phase = .cmpAbs → s'.phase = .accept) ∧ (s.phase = .cmpFin2 → s'.phase = .done) ∧
      (s.phase = .cmpFin1 → s'.phase = .cmpFin2 ∧ s'.Wwin = trailerBlock s.L ∧
        s'.work = ⟨s'.H[0], s'.H[1], s'.H[2], s'.H[3], s'.H[4], s'.H[5], s'.H[6], s'.H[7]⟩) ∧
      s'.B = s.B ∧ s'.n = s.n ∧ s'.L = s.L ∧ s'.errCause = s.errCause ∧
      s'.dsel = s.dsel ∧ s'.misuse = s.misuse ∧ s'.host = s.host

/-- R296: after a command is accepted, `cmd_ready` is 0 for exactly the cycles of the table, whatever is presented meanwhile;
and after a FINAL in ACCEPT, `done` rises with it. -/
def Obligations.BusyForTheTableOfCycles : Prop :=
  ∀ (i : Instr) (s s' : State) (ins : List EdgeInputs), s.Ready → (∀ k, i ≠ .read k) → exec i s = .next s' →
    NoReset ins → ins.length ≤ busyCycles i s →
    ∃ s'' : State, runEdges ins s' = .next s'' ∧
      s''.cmdReady = decide (ins.length = busyCycles i s) ∧
      ∀ data, i = .final data → s.phase = .accept → s''.done = decide (ins.length = busyCycles i s)

/-! ### Acceptance, INIT and RSVD (43_control.md) -/

/-- R190, R196, R290: what each kind of edge does, in every state that has one. That the reset edge of the first clause
completes from states the spec otherwise refuses too is the model's reading, log entry 5 (DEDUCED). -/
def Obligations.EdgeDispatch : Prop :=
  ∀ (valid : Bool) (cmd : BitVec 10) (s : State),
    edge true valid cmd s = .next (resetEdge s) ∧
      (s.Ready → edge false false cmd s = .next s ∧ edge false true cmd s = exec (decode (.cmd cmd)) s) ∧
      (s.phase.compressing = true → s.t.toNat < 64 → edge false valid cmd s = .next (roundEdge s)) ∧
      (s.phase.compressing = true → s.t.toNat = 64 → edge false valid cmd s = .next (feedForwardEdge s))

/-- R192: INIT completes wherever a command is accepted, writes exactly these registers and leaves every other one. -/
def Obligations.InitStartsNewHash : Prop :=
  ∀ (data : Byte) (s : State), s.Ready →
    exec (.init data) s = .next
      { s with
        H := #v[0x6A09E667, 0xBB67AE85, 0x3C6EF372, 0xA54FF53A, 0x510E527F, 0x9B05688C, 0x1F83D9AB, 0x5BE0CD19]
        n := 0, L := 0, t := 0, phase := .accept, errCause := .none }

/-- R64: INIT twice is INIT once. -/
def Obligations.InitIsIdempotent : Prop :=
  ∀ (data data' : Byte) (s s' : State), s.Ready → exec (.init data) s = .next s' → exec (.init data') s' = .next s'

/-- R194 with R263: RSVD completes wherever a command is accepted, records cause 0b11 if it is the first, and changes nothing
else. -/
def Obligations.ReservedCommandOnlyRecords : Prop :=
  ∀ (data : Byte) (s : State), s.Ready →
    exec (.rsvd data) s = .next { s with errCause := if s.errCause = .none then .reservedOp else s.errCause }

/-- R190, R294: while a compression runs, a presented command does exactly what an idle edge does, so that it is neither
executed nor queued; the error cause, the buffer and the counters are untouched. -/
def Obligations.CommandIgnoredWhileBusy : Prop :=
  ∀ (i : Instr) (cmd : BitVec 10) (s : State), (∀ k, i ≠ .read k) → s.phase.compressing = true → s.t.toNat ≤ 64 →
    ∃ s' : State, exec i s = .next s' ∧ edge false false cmd s = .next s' ∧
      s'.B = s.B ∧ s'.n = s.n ∧ s'.L = s.L ∧ s'.errCause = s.errCause ∧ s'.dsel = s.dsel ∧ s'.misuse = s.misuse ∧
      s'.host = s.host

/-- R193 with R290: whatever two instances held before, from an INIT or a reset on their ports show the same for the same
inputs, for every value of `dsel`; so no output depends on `B`, `Wwin` and `a..h` as they were. -/
def Obligations.OutputsForgetEverythingBeforeInit : Prop :=
  ∀ s₁ s₂ t₁ t₂ : State,
    (t₁ = resetEdge s₁ ∨ s₁.Ready ∧ ∃ data, exec (.init data) s₁ = .next t₁) →
    (t₂ = resetEdge s₂ ∨ s₂.Ready ∧ ∃ data, exec (.init data) s₂ = .next t₂) →
    ∀ (ins : List EdgeInputs) (i : BitVec 3),
      (portTrace ins t₁ i).length = ins.length + 1 ∧ portTrace ins t₁ i = portTrace ins t₂ i

/-- R31: the phase after an edge is the one of the transition table. -/
def Obligations.PhaseFollowsTransitionTable : Prop :=
  ∀ (rst valid : Bool) (cmd : BitVec 10) (s s' : State), edge rst valid cmd s = .next s' →
    s'.phase = phaseAfterEdge rst valid cmd s

/-- R191 with R21, R22 and R142: which edges may write `H`, `B`, `L` and `err_cause`. -/
def Obligations.OnlyTheNamedEdgesWrite : Prop :=
  ∀ (rst valid : Bool) (cmd : BitVec 10) (s s' : State), edge rst valid cmd s = .next s' → rst = false →
    (s'.H ≠ s.H → (s.cmdReady = true ∧ valid = true ∧ ∃ d, decode (.cmd cmd) = .init d) ∨
      (s.phase.compressing = true ∧ s.t = 64)) ∧
    (s'.B ≠ s.B → s.phase = .accept ∧ valid = true ∧ ∃ d, decode (.cmd cmd) = .absorb d) ∧
    (s'.L ≠ s.L → s.cmdReady = true ∧ valid = true ∧
      ((∃ d, decode (.cmd cmd) = .init d) ∨ s.phase = .accept ∧ ∃ d, decode (.cmd cmd) = .absorb d)) ∧
    (s'.errCause ≠ s.errCause → s.cmdReady = true ∧ valid = true ∧
      ((∃ d, decode (.cmd cmd) = .init d) ∨ (∃ d, decode (.cmd cmd) = .rsvd d) ∨
        s.phase = .done ∧ ∃ d, decode (.cmd cmd) = .absorb d ∨ decode (.cmd cmd) = .final d))

/-- R195 with R28, R190 and R290: a step completes exactly in the states the spec gives a step to, whatever the host does, and
in every state where the host asserts reset. The refusals are log entry 7, and that reset completes everywhere is log entry 5
(both DEDUCED). -/
def Obligations.StepsCompleteExactlyWhereSpecified : Prop :=
  ∀ s : State,
    (∃ s', step s = .next s') ↔
      s.Legal ∨ (∃ rest, s.host = .reset :: rest) ∨ ∃ valid cmd rest, s.host = .drive true valid cmd :: rest

/-! ### Finalisation (44_finalization.md) -/

/-- R210 with R211 and R212: FINAL in ACCEPT completes; it loads the padded block, byte by byte as R211 says, starts its
compression, sets `n` to 0, and goes to CMP_FIN2 or CMP_FIN1 as the trailer fits; `H`, `B`, `L` and the rest are unchanged. -/
def Obligations.FinalPadsAndStarts : Prop :=
  ∀ (data : Byte) (s : State), s.Legal → s.phase = .accept →
    ∃ s' : State, exec (.final data) s = .next s' ∧
      (∀ i : BitVec 6, bufRead s'.Wwin i =
        if s.n.toNat ≤ 55 ∧ 56 ≤ i.toNat then (s.L >>> (8 * (63 - i.toNat))).setWidth 8
        else if i.toNat < s.n.toNat then bufRead s.B i
        else if i.toNat = s.n.toNat then 0x80
        else 0x00) ∧
      s'.phase = (if s.n.toNat ≤ 55 then .cmpFin2 else .cmpFin1) ∧ s'.n = 0 ∧ s'.t = 0 ∧
      s'.work = ⟨s.H[0], s.H[1], s.H[2], s.H[3], s.H[4], s.H[5], s.H[6], s.H[7]⟩ ∧
      s'.H = s.H ∧ s'.B = s.B ∧ s'.L = s.L ∧ s'.errCause = s.errCause ∧
      s'.dsel = s.dsel ∧ s'.misuse = s.misuse ∧ s'.host = s.host

/-- R214 with R54: the trailer-only block is zero but for the length in its last two words. -/
def Obligations.TrailerBlockHoldsLength : Prop :=
  ∀ L : BitVec 64, (∀ j : Nat, (h : j < 14) → (trailerBlock L)[j] = 0) ∧
    (trailerBlock L)[14] ++ (trailerBlock L)[15] = L

/-- R216 with R215: the padded message is the message, 0x80, the least number of zero bytes that fills the last block, and the
length; it has `floor(N/64)` blocks and one or two more. -/
def Obligations.PaddedMessageFillsBlocks : Prop :=
  ∀ msg : List Byte,
    paddedMessage msg = msg ++ [(0x80 : Byte)] ++ List.replicate (padZeros msg.length) (0x00 : Byte) ++
      (List.range 8).map (fun m => ((BitVec.ofNat 64 (8 * msg.length) >>> (56 - 8 * m)).setWidth 8 : Byte)) ∧
    (msg.length + 1 + padZeros msg.length + 8) % 64 = 0 ∧
    (∀ z < padZeros msg.length, (msg.length + 1 + z + 8) % 64 ≠ 0) ∧
    (paddedMessage msg).length = 64 * (msg.length / 64 + if msg.length % 64 ≤ 55 then 1 else 2)

/-! ### Whole messages -/

/-- R192, R290: after INIT or reset an instance has absorbed the empty message. -/
def Obligations.InitAndResetAbsorbNothing : Prop :=
  (∀ s : State, (resetEdge s).Absorbed []) ∧
    ∀ (data : Byte) (s : State), s.Ready → ∃ s', exec (.init data) s = .next s' ∧ s'.Absorbed []

/-- R145, R146: an accepted byte extends the message absorbed by one, at once or, when it fills a block, after the 65 busy
edges of that block's compression, whatever the host presents meanwhile. Idle edges change nothing, so that any chunking of a
message gives the same state. -/
def Obligations.AbsorbExtendsTheMessage : Prop :=
  ∀ (msg : List Byte) (db : Byte) (s : State), s.Absorbed msg →
    (∀ cmd, edge false false cmd s = .next s) ∧
    ∃ s' : State, exec (.absorb db) s = .next s' ∧ s'.errCause = s.errCause ∧
      (s.n.toNat < 63 → s'.Absorbed (msg ++ [db])) ∧
      (s.n.toNat = 63 → ∀ ins : List EdgeInputs, NoReset ins → ins.length = 65 →
        ∃ s'', runEdges ins s' = .next s'' ∧ s''.Absorbed (msg ++ [db]) ∧ s''.errCause = s.errCause)

/-- R215, R216, R217, R241: FINAL after a message has been absorbed ends, after one or two compressions, with `done = 1` and the
digest of the padded message in `H`; `n` is 0, `L` is the message length, and the error cause is as it was. -/
def Obligations.FinalYieldsTheDigest : Prop :=
  ∀ (msg : List Byte) (data : Byte) (s : State), s.Absorbed msg →
    ∃ s' : State, exec (.final data) s = .next s' ∧
      ∀ ins : List EdgeInputs, NoReset ins → ins.length = 65 * finalCompressions msg.length →
        ∃ s'' : State, runEdges ins s' = .next s'' ∧ s''.digest? = some (digestOf msg) ∧ s''.phase = .done ∧
          s''.n = 0 ∧ s''.L = BitVec.ofNat 64 (8 * msg.length) ∧ s''.t = 0 ∧ s''.B = s.B ∧ s''.errCause = s.errCause

/-- R89, R241, R299: the whole lifecycle. A host that issues INIT, the bytes of any message and FINAL, each held until accepted,
and then waits, sees `done` for the first time `edges(N)` edges after the INIT edge, and with it the digest of the padded
message and no error. How a step is cut from the host's acts is log entry 3. -/
def Obligations.WholeMessageIsHashed : Prop :=
  ∀ (msg : List Byte) (s : State) (rest : List Directive), s.Ready →
    s.host = directiveFor (.init 0) :: updateDirectives msg ++ directiveFor (.final 0) :: .waitDone :: rest →
    (∀ k, 1 ≤ k → k < 1 + edgesOf msg.length →
      ∃ s', Host.Core.run core k s = .next s' ∧ s'.done = false) ∧
    ∃ s', Host.Core.run core (1 + edgesOf msg.length) s = .next s' ∧ s'.digest? = some (digestOf msg) ∧
      s'.errCause = .none ∧ s'.host = .waitDone :: rest

/-! ### Digest output (45_digest_output.md) -/

/-- R240: READ completes wherever the ports can be observed; `dout` then shows the word asked for and no register is written. -/
def Obligations.ReadShowsSelectedWord : Prop :=
  ∀ (i : BitVec 3) (s : State), s.Legal →
    exec (.read i) s = .next { s with dsel := i } ∧
      ∀ s', exec (.read i) s = .next s' → s'.outputs.map Outputs.dout = some s.H[i.toFin]

/-- R243, R217: while `done = 1`, only reset and an accepted INIT change `H` or leave DONE. -/
def Obligations.DigestStaysUntilInitOrReset : Prop :=
  ∀ (rst valid : Bool) (cmd : BitVec 10) (s s' : State), s.phase = .done → edge rst valid cmd s = .next s' →
    rst = true ∨ (valid = true ∧ ∃ data, decode (.cmd cmd) = .init data) ∨ (s'.H = s.H ∧ s'.phase = .done)

/-- R55, R244: the digest's bytes are big-endian in each word, words in index order, and two lowercase hex digits a byte render
them. -/
def Obligations.DigestBytesAreBigEndian : Prop :=
  (List.finRange 16).map (fun d => hexDigit (BitVec.ofFin d)) =
      ['0', '1', '2', '3', '4', '5', '6', '7', '8', '9', 'a', 'b', 'c', 'd', 'e', 'f'] ∧
  ∀ (H : Vector Word 8) (j : Nat) (h : j < 8),
    digestByte H ⟨4 * j, by omega⟩ ++ digestByte H ⟨4 * j + 1, by omega⟩ ++ digestByte H ⟨4 * j + 2, by omega⟩ ++
      digestByte H ⟨4 * j + 3, by omega⟩ = H[j] ∧
    (renderDigest H).length = 64 ∧
    ∀ k : Fin 32, (renderDigest H)[2 * k.val]? = some (hexDigit ((digestByte H k).extractLsb' 4 4)) ∧
      (renderDigest H)[2 * k.val + 1]? = some (hexDigit ((digestByte H k).extractLsb' 0 4))

/-! ### Outputs, errors, reset, invariants (10_state.md, 60_exceptions.md, 70_reset_and_hazards.md) -/

/-- R34: the status outputs, in every state that has outputs. -/
def Obligations.StatusOutputsFollowRegisters : Prop :=
  ∀ (s : State) (i : BitVec 3), s.Legal → ∃ o : Outputs, s.outputsAt i = some o ∧
    (o.cmdReady = true ↔ s.phase = .accept ∨ s.phase = .done) ∧ (o.done = true ↔ s.phase = .done) ∧
    (o.err = true ↔ o.errCause ≠ 0b00) ∧ o.errCause = s.errCause.code ∧ o.dout = s.H[i.toFin]

/-- R261, R263: the codes of the causes, the error cause after every edge, and `err`. -/
def Obligations.ErrorCauseAfterEdge : Prop :=
  (ErrCause.none.code = 0b00 ∧ ErrCause.absorbAfterFinal.code = 0b01 ∧ ErrCause.finalAfterFinal.code = 0b10 ∧
    ErrCause.reservedOp.code = 0b11) ∧
  ∀ (rst valid : Bool) (cmd : BitVec 10) (s s' : State), edge rst valid cmd s = .next s' →
    (s'.errCause =
      if rst then .none
      else if s.cmdReady ∧ valid then causeAfterCommand (decode (.cmd cmd)) s
      else s.errCause) ∧
    (s'.err = true ↔ s'.errCause ≠ .none)

/-- R267 (the model's fault bit, log entry 4): it is set exactly by an ABSORB or a FINAL accepted in DONE, is kept by every
other edge, INIT among them, and goes with a reset. -/
def Obligations.MisuseBitMarksUseAfterFinalize : Prop :=
  ∀ (rst valid : Bool) (cmd : BitVec 10) (s s' : State), edge rst valid cmd s = .next s' →
    (s'.misuse = true ↔ rst = false ∧
      (s.misuse = true ∨ s.phase = .done ∧ valid = true ∧
        ∃ data, decode (.cmd cmd) = .absorb data ∨ decode (.cmd cmd) = .final data))

/-- R290: a reset edge, from every state and whatever the command inputs: the registers it writes, and those it leaves. That
"every state" takes in those with an unused phase or `t` above 64 is the model's reading, log entry 5 (DEDUCED). -/
def Obligations.ResetEdgeFromEveryState : Prop :=
  ∀ (valid : Bool) (cmd : BitVec 10) (s : State), ∃ s' : State, edge true valid cmd s = .next s' ∧
    s'.H = IV ∧ s'.n = 0 ∧ s'.L = 0 ∧ s'.t = 0 ∧ s'.phase = .accept ∧ s'.errCause = .none ∧
    s'.B = s.B ∧ s'.Wwin = s.Wwin ∧ s'.work = s.work ∧ s'.dsel = s.dsel ∧ s'.host = s.host

/-- R292: the values the spec gives the registers and the outputs after reset. -/
def Obligations.ResetStateAsSpecified : Prop :=
  State.reset.H = IV ∧ State.reset.n = 0 ∧ State.reset.L = 0 ∧ State.reset.t = 0 ∧ State.reset.phase = .accept ∧
    State.reset.errCause = .none ∧
    ∀ i : BitVec 3, State.reset.outputsAt i = some ⟨true, false, false, 0b00, IV[i.toFin]⟩

/-- R36 holds right after reset. -/
def Obligations.InvariantHoldsAtReset : Prop := State.reset.Inv

/-- R36: every step keeps the invariants, whatever the host does. -/
def Obligations.InvariantKeptByEveryStep : Prop :=
  ∀ s s' : State, s.Inv → step s = .next s' → s'.Inv

/-! ### The host's directives and steps (30_encoding.md R87, R88; 70_reset_and_hazards.md R294) -/

/-- R87: a step of a host that issues a command word runs the instruction it decodes to, once, and moves past it when it was
accepted; a READ runs the same way; and `withFetchWord` puts an instruction where the next step takes it. How a step is cut
from the host's acts is log entry 3. -/
def Obligations.StepRunsTheDecodedInstruction : Prop :=
  (∀ (s : State) (cmd : BitVec 10) (rest : List Directive), s.host = .issue cmd :: rest → s.cmdReady = true →
    step s = exec (decode (.cmd cmd)) { s with host := rest }) ∧
  (∀ (s : State) (cmd : BitVec 10) (rest : List Directive), s.host = .issue cmd :: rest → s.cmdReady = false →
    step s = exec (decode (.cmd cmd)) s) ∧
  (∀ (s : State) (i : BitVec 3) (rest : List Directive), s.host = .read i :: rest →
    step s = exec (decode (.dsel i)) { s with host := rest }) ∧
  ∀ (s : State) (i : Instr), s.cmdReady = true →
    step (s.withFetchWord (tableBits (encode i)) (tableNumber (encode i))) = exec i s

/-- R88, R196: the other directives: RESET is one reset edge, IDLE k is k idle edges, and the waits idle until their output is 1.
How a step is cut from the host's acts is log entry 3. -/
def Obligations.StepRunsTheHostDirectives : Prop :=
  ∀ (s : State) (rest : List Directive), s.Legal →
    (s.host = .reset :: rest → step s = .next (resetEdge { s with host := rest })) ∧
    (∀ rst valid cmd, s.host = .drive rst valid cmd :: rest → step s = edge rst valid cmd { s with host := rest }) ∧
    (∀ k, s.host = .idle (k + 1) :: rest → step s = edge false false 0 { s with host := .idle k :: rest }) ∧
    (s.host = .idle 0 :: rest → step s = .next { s with host := rest }) ∧
    (s.host = .waitReady :: rest →
      step s = if s.cmdReady then .next { s with host := rest } else edge false false 0 s) ∧
    (s.host = .waitDone :: rest → step s = if s.done then .next { s with host := rest } else edge false false 0 s) ∧
    (s.host = [] → step s = edge false false 0 s)

/-- R294, R296: a command held on the port finds the instance ready after at most 130 steps, the host holding it all the while,
and the next step accepts it (from CMP_FIN1 with `t = 0`, step 131). How a step is cut from the host's acts is log entry 3. -/
def Obligations.HeldCommandIsAcceptedInTime : Prop :=
  ∀ (s : State) (cmd : BitVec 10) (rest : List Directive), s.Inv → s.host = .issue cmd :: rest →
    ∃ k, k ≤ 130 ∧ ∃ s', Host.Core.run core k s = .next s' ∧ s'.Ready ∧ s'.host = s.host ∧
      step s' = exec (decode (.cmd cmd)) { s' with host := rest }

/-- R85 to R89: the assembler's words and the expansions of READ, UPDATE, DIGEST and HASH; a byte or an index out of range gives
none. -/
def Obligations.AssemblerWritesTheWords : Prop :=
  (∀ b : Nat, b < 256 →
    assembleLine (.absorb b) = some [.issue (BitVec.ofNat 10 (0x100 + b))] ∧
      assembleLine (.rsvd b) = some [.issue (BitVec.ofNat 10 (0x300 + b))]) ∧
    (∀ b : Nat, 256 ≤ b → assembleLine (.absorb b) = none ∧ assembleLine (.rsvd b) = none) ∧
    assembleLine .init = some [.issue 0x000] ∧ assembleLine .final = some [.issue 0x200] ∧
    (∀ i : Nat, i < 8 → assembleLine (.read i) = some [.read (BitVec.ofNat 3 i)]) ∧
    (∀ i : Nat, 8 ≤ i → assembleLine (.read i) = none) ∧
    assembleLine .digest =
      some [.waitDone, .read 0, .read 1, .read 2, .read 3, .read 4, .read 5, .read 6, .read 7] ∧
    (∀ bytes : List Nat, (∀ b ∈ bytes, b < 256) →
      assembleLine (.update bytes) = some (bytes.map fun b => .issue (BitVec.ofNat 10 (0x100 + b))) ∧
        assembleLine (.hash bytes) =
          some (.issue 0x000 :: (bytes.map fun b => .issue (BitVec.ofNat 10 (0x100 + b))) ++
            [.issue 0x200, .waitDone, .read 0, .read 1, .read 2, .read 3, .read 4, .read 5, .read 6, .read 7])) ∧
    ∀ bytes : List Nat, (∃ b ∈ bytes, 256 ≤ b) →
      assembleLine (.update bytes) = none ∧ assembleLine (.hash bytes) = none

/-- R37, R272: a step of one instance is that instance's own step and changes no other. That a system is a list of states of
which one makes a step at a time is the model's choice, log entry 15. -/
def Obligations.InstancesAreIndependent : Prop :=
  ∀ (sys sys' : System) (k : Nat), stepAt sys k = some (.next sys') →
    sys'.length = sys.length ∧ (∀ j, j ≠ k → sys'[j]? = sys[j]?) ∧
      ∃ s s', sys[k]? = some s ∧ step s = .next s' ∧ sys'[k]? = some s'
end

