-- ==== Sys2Proof/Laws/Bytes.lean ====
section
/-! SUPPORT. Lanes, words and the block buffer as a byte store: what each operation reads and writes, byte by byte. -/

namespace Sys2Proof.Machine

theorem laneOf_getElem (w : Word) (k i : Nat) (hi : i < 8) : (laneOf w k)[i] = w.getLsbD (24 - 8 * k + i) := by
  simp [laneOf]

theorem laneOf_setLane_same (w : Word) (k : Nat) (hk : k < 4) (v : Byte) : laneOf (setLane w k v) k = v := by
  ext i hi
  simp only [laneOf, setLane, BitVec.getElem_extractLsb', BitVec.getLsbD_or, BitVec.getLsbD_and, BitVec.getLsbD_not,
    BitVec.getLsbD_shiftLeft, BitVec.getLsbD_setWidth]
  have notBelow : ¬ (24 - 8 * k + i < 24 - 8 * k) := by omega
  have inWord : 24 - 8 * k + i < 32 := by omega
  have inMask : (0xFF#32).getLsbD i = true := by interval_cases i <;> decide
  have inByte : i < 32 := by omega
  simp [notBelow, inWord, inMask, inByte, hi]

theorem laneOf_setLane_other (w : Word) (k j : Nat) (hk : k < 4) (hj : j < 4) (h : j ≠ k) (v : Byte) :
    laneOf (setLane w k v) j = laneOf w j := by
  ext i hi
  simp only [laneOf, setLane, BitVec.getElem_extractLsb', BitVec.getLsbD_or, BitVec.getLsbD_and, BitVec.getLsbD_not,
    BitVec.getLsbD_shiftLeft, BitVec.getLsbD_setWidth]
  have inWord : 24 - 8 * j + i < 32 := by omega
  rcases Nat.lt_or_gt_of_ne h with h | h
  · have notBelow : ¬ (24 - 8 * j + i < 24 - 8 * k) := by omega
    have above : 8 ≤ 24 - 8 * j + i - (24 - 8 * k) := by omega
    have offMask : (0xFF#32).getLsbD (24 - 8 * j + i - (24 - 8 * k)) = false := by
      rw [show (0xFF#32) = (0xFF#8).setWidth 32 from rfl, BitVec.getLsbD_setWidth, BitVec.getLsbD_of_ge _ _ above]
      simp
    have offByte : v.getLsbD (24 - 8 * j + i - (24 - 8 * k)) = false := BitVec.getLsbD_of_ge _ _ above
    simp [notBelow, inWord, offMask, offByte]
  · have below : (24 - 8 * j + i < 24 - 8 * k) := by omega
    simp [below, inWord]

theorem packWord_getLsbD (p0 p1 p2 p3 : Byte) (j : Nat) :
    (packWord p0 p1 p2 p3).getLsbD j =
      if j < 8 then p3.getLsbD j else if j < 16 then p2.getLsbD (j - 8)
      else if j < 24 then p1.getLsbD (j - 16) else p0.getLsbD (j - 24) := by
  unfold packWord
  simp only [BitVec.getLsbD_append]
  repeat' split
  all_goals first | omega | rfl

/-- A packed word holds its bytes most significant first. -/
theorem laneOf_packWord (p0 p1 p2 p3 : Byte) (k : Nat) :
    laneOf (packWord p0 p1 p2 p3) k = if k = 0 then p0 else if k = 1 then p1 else if k = 2 then p2 else p3 := by
  ext i hi
  rw [laneOf_getElem, packWord_getLsbD]
  rcases (by omega : k = 0 ∨ k = 1 ∨ k = 2 ∨ 3 ≤ k) with rfl | rfl | rfl | h
  · rw [if_neg (by omega), if_neg (by omega), if_neg (by omega), if_pos rfl, BitVec.getElem_eq_testBit_toNat,
      BitVec.testBit_toNat]
    congr 1; omega
  · rw [if_neg (by omega), if_neg (by omega), if_pos (by omega)]
    simp [← BitVec.getLsbD_eq_getElem]
  · rw [if_neg (by omega), if_pos (by omega)]
    simp [← BitVec.getLsbD_eq_getElem]
  · rw [if_pos (by omega), if_neg (by omega), if_neg (by omega), if_neg (by omega),
      show 24 - 8 * k + i = i by omega]
    simp [← BitVec.getLsbD_eq_getElem]

theorem packWord_lanes (w : Word) : packWord (laneOf w 0) (laneOf w 1) (laneOf w 2) (laneOf w 3) = w := by
  apply BitVec.eq_of_getLsbD_eq
  intro i hi
  rw [packWord_getLsbD]
  simp only [laneOf, BitVec.getLsbD_extractLsb']
  repeat' split
  · simp [*]
  · rw [decide_eq_true (by omega : i - 8 < 8), show 24 - 8 * 2 + (i - 8) = i by omega, Bool.true_and]
  · rw [decide_eq_true (by omega : i - 16 < 8), show 24 - 8 * 1 + (i - 16) = i by omega, Bool.true_and]
  · rw [decide_eq_true (by omega : i - 24 < 8), show 24 - 8 * 0 + (i - 24) = i by omega, Bool.true_and]

theorem word_ext_lanes (v w : Word) (h : ∀ k, k < 4 → laneOf v k = laneOf w k) : v = w := by
  rw [← packWord_lanes v, ← packWord_lanes w, h 0 (by omega), h 1 (by omega), h 2 (by omega), h 3 (by omega)]

theorem slotOf_val (i : BitVec 6) : (slotOf i).val = i.toNat / 4 := by
  simp only [slotOf, BitVec.extractLsb'_toNat, Nat.shiftRight_eq_div_pow]
  omega

theorem laneIx_eq (i : BitVec 6) : laneIx i = i.toNat % 4 := by
  simp [laneIx, BitVec.extractLsb'_toNat]

theorem laneIx_lt (i : BitVec 6) : laneIx i < 4 := by
  rw [laneIx_eq]; omega

theorem byte_index_ext {i j : BitVec 6} (hs : slotOf i = slotOf j) (hl : laneIx i = laneIx j) : i = j := by
  apply BitVec.eq_of_toNat_eq
  have hs := congrArg Fin.val hs
  rw [slotOf_val, slotOf_val] at hs
  rw [laneIx_eq, laneIx_eq] at hl
  omega

/-- What the buffer reads as after a byte was appended: the byte itself, zeros in the rest of a group just begun, and every
other byte as before (R51, R140, R141). -/
theorem bufRead_bufAppend (B : Vector Word 16) (i j : BitVec 6) (v : Byte) :
    bufRead (bufAppend B i v) j =
      if j = i then v else if laneIx i = 0 ∧ slotOf j = slotOf i then 0 else bufRead B j := by
  have same : ∀ w, (B.set (slotOf i).val w (slotOf i).isLt)[slotOf j] = if slotOf j = slotOf i then w else B[slotOf j] := by
    intro w
    simp only [Fin.getElem_fin, Vector.getElem_set, Fin.ext_iff, eq_comm]
  unfold bufAppend bufRead
  by_cases hji : j = i
  · subst hji
    by_cases h0 : laneIx j = 0
    · simp [h0, bufWriteFirst, laneOf_packWord]
    · simp [h0, bufWrite, laneOf_setLane_same _ _ (laneIx_lt j)]
  · by_cases hs : slotOf j = slotOf i
    · have hl : laneIx j ≠ laneIx i := fun hl => hji (byte_index_ext hs hl)
      by_cases h0 : laneIx i = 0
      · have hj : laneIx j ≠ 0 := h0 ▸ hl
        rw [if_pos h0, bufWriteFirst, same, if_pos hs, laneOf_packWord]
        simp [h0, hs, hji, hj]
      · rw [if_neg h0, bufWrite, same, if_pos hs, laneOf_setLane_other _ _ _ (laneIx_lt i) (laneIx_lt j) hl, if_neg hji,
          if_neg (fun h => h0 h.1)]
        simp only [Fin.getElem_fin, hs]
    · by_cases h0 : laneIx i = 0
      · rw [if_pos h0, bufWriteFirst, same, if_neg hs, if_neg hji, if_neg (fun h => hs h.2)]
      · rw [if_neg h0, bufWrite, same, if_neg hs, if_neg hji, if_neg (fun h => hs h.2)]

theorem laneOf_wordsOf (p : Vector Byte 64) (j k : Nat) (hj : j < 16) (hk : k < 4) :
    laneOf (wordsOf p)[j] k = p[4 * j + k] := by
  simp only [wordsOf, Vector.getElem_ofFn, laneOf_packWord]
  rcases (by omega : k = 0 ∨ k = 1 ∨ k = 2 ∨ k = 3) with rfl | rfl | rfl | rfl <;> simp

/-- `Words` and `BufRead` agree on where a byte is (R50, R53). -/
theorem bufRead_wordsOf (p : Vector Byte 64) (i : BitVec 6) : bufRead (wordsOf p) i = p[i.toNat] := by
  unfold bufRead
  rw [Fin.getElem_fin, laneOf_wordsOf p _ _ (slotOf i).isLt (laneIx_lt i)]
  congr 1
  rw [slotOf_val, laneIx_eq]; omega

/-- Two buffers that agree on every byte are equal. -/
theorem buffer_ext (B C : Vector Word 16) (h : ∀ i : BitVec 6, bufRead B i = bufRead C i) : B = C := by
  ext1 j hj
  apply word_ext_lanes
  intro k hk
  have h := h (BitVec.ofNat 6 (4 * j + k))
  have ht : (BitVec.ofNat 6 (4 * j + k)).toNat = 4 * j + k := by
    rw [BitVec.toNat_ofNat]; omega
  have hs : (slotOf (BitVec.ofNat 6 (4 * j + k))).val = j := by rw [slotOf_val, ht]; omega
  have hl : laneIx (BitVec.ofNat 6 (4 * j + k)) = k := by rw [laneIx_eq, ht]; omega
  simpa only [bufRead, Fin.getElem_fin, hs, hl] using h

theorem wordsOf_bytes (B : Vector Word 16) : wordsOf (Vector.ofFn fun i => bufRead B (BitVec.ofFin i)) = B := by
  apply buffer_ext
  intro i
  rw [bufRead_wordsOf, Vector.getElem_ofFn]
  rfl

end Sys2Proof.Machine
end

