-- ==== Sys2Proof/Laws/Decode.lean ====
section
/-! SUPPORT. The fields of a command word, and what a command word can decode to. -/

namespace Sys2Proof

theorem commandWord_getLsbD (op : BitVec 2) (data : Byte) (i : Nat) :
    (commandWord op data).getLsbD i = if i < 8 then data.getLsbD i else op.getLsbD (i - 8) := by
  unfold commandWord
  have h := @BitVec.getLsbD_append 2 8 i op data
  simpa [Bool.cond_eq_ite] using h

theorem opField_commandWord (op : BitVec 2) (data : Byte) : opField (commandWord op data) = op := by
  unfold opField
  ext i hi
  rw [BitVec.getElem_extractLsb', commandWord_getLsbD, if_neg (by omega), Nat.add_sub_cancel_left,
    BitVec.getLsbD_eq_getElem hi]

theorem dataField_commandWord (op : BitVec 2) (data : Byte) : dataField (commandWord op data) = data := by
  unfold dataField
  ext i hi
  rw [BitVec.getElem_extractLsb', commandWord_getLsbD, if_pos (by omega), Nat.zero_add, BitVec.getLsbD_eq_getElem hi]

theorem commandWord_fields (w : BitVec 10) : commandWord (opField w) (dataField w) = w := by
  apply BitVec.eq_of_getLsbD_eq
  intro i hi
  rw [commandWord_getLsbD]
  unfold opField dataField
  split
  · rename_i h
    rw [BitVec.getLsbD_extractLsb', Nat.zero_add]
    simp [h]
  · rename_i h
    rw [BitVec.getLsbD_extractLsb', show 8 + (i - 8) = i by omega]
    simp
    omega

/-- A command word is one of the four commands, and never READ (R83). -/
theorem decodeCmd_cases (w : BitVec 10) :
    (∃ d, decodeCmd w = .init d) ∨ (∃ d, decodeCmd w = .absorb d) ∨ (∃ d, decodeCmd w = .final d) ∨
      ∃ d, decodeCmd w = .rsvd d := by
  unfold decodeCmd
  split
  · exact .inl ⟨_, rfl⟩
  split
  · exact .inr (.inl ⟨_, rfl⟩)
  split
  · exact .inr (.inr (.inl ⟨_, rfl⟩))
  · exact .inr (.inr (.inr ⟨_, rfl⟩))

/-- An encoded instruction is always a port word that fits (R80, R85). -/
theorem portWordOf_encode (i : Instr) : portWordOf (tableBits (encode i)) (tableNumber (encode i)) = .ok (encode i) := by
  unfold portWordOf
  cases encode i with
  | cmd w =>
    have : w.toNat < 1024 := w.isLt
    simp [tableBits, tableNumber, this]
  | dsel w =>
    have : w.toNat < 8 := w.isLt
    simp [tableBits, tableNumber, this]

end Sys2Proof
end

