-- ==== Sys2Proof/Laws/State.lean ====
section
/-! SUPPORT. Every field of the state after each shared update, so that no proof unfolds a record update. -/

namespace Sys2Proof.Machine

@[simp] theorem raiseError_H (c : ErrCause) (s : State) : (raiseError c s).H = s.H := rfl
@[simp] theorem raiseError_B (c : ErrCause) (s : State) : (raiseError c s).B = s.B := rfl
@[simp] theorem raiseError_n (c : ErrCause) (s : State) : (raiseError c s).n = s.n := rfl
@[simp] theorem raiseError_L (c : ErrCause) (s : State) : (raiseError c s).L = s.L := rfl
@[simp] theorem raiseError_work (c : ErrCause) (s : State) : (raiseError c s).work = s.work := rfl
@[simp] theorem raiseError_Wwin (c : ErrCause) (s : State) : (raiseError c s).Wwin = s.Wwin := rfl
@[simp] theorem raiseError_t (c : ErrCause) (s : State) : (raiseError c s).t = s.t := rfl
@[simp] theorem raiseError_phase (c : ErrCause) (s : State) : (raiseError c s).phase = s.phase := rfl
@[simp] theorem raiseError_errCause (c : ErrCause) (s : State) : (raiseError c s).errCause = if s.errCause = .none then c else s.errCause := rfl
@[simp] theorem raiseError_dsel (c : ErrCause) (s : State) : (raiseError c s).dsel = s.dsel := rfl
@[simp] theorem raiseError_misuse (c : ErrCause) (s : State) : (raiseError c s).misuse = (s.misuse || c.isMisuse) := rfl
@[simp] theorem raiseError_host (c : ErrCause) (s : State) : (raiseError c s).host = s.host := rfl

@[simp] theorem startCompress_H (blk : Vector Word 16) (s : State) : (startCompress blk s).H = s.H := rfl
@[simp] theorem startCompress_B (blk : Vector Word 16) (s : State) : (startCompress blk s).B = s.B := rfl
@[simp] theorem startCompress_n (blk : Vector Word 16) (s : State) : (startCompress blk s).n = s.n := rfl
@[simp] theorem startCompress_L (blk : Vector Word 16) (s : State) : (startCompress blk s).L = s.L := rfl
@[simp] theorem startCompress_work (blk : Vector Word 16) (s : State) : (startCompress blk s).work = loadWorking s.H := rfl
@[simp] theorem startCompress_Wwin (blk : Vector Word 16) (s : State) : (startCompress blk s).Wwin = blk := rfl
@[simp] theorem startCompress_t (blk : Vector Word 16) (s : State) : (startCompress blk s).t = 0 := rfl
@[simp] theorem startCompress_phase (blk : Vector Word 16) (s : State) : (startCompress blk s).phase = s.phase := rfl
@[simp] theorem startCompress_errCause (blk : Vector Word 16) (s : State) : (startCompress blk s).errCause = s.errCause := rfl
@[simp] theorem startCompress_dsel (blk : Vector Word 16) (s : State) : (startCompress blk s).dsel = s.dsel := rfl
@[simp] theorem startCompress_misuse (blk : Vector Word 16) (s : State) : (startCompress blk s).misuse = s.misuse := rfl
@[simp] theorem startCompress_host (blk : Vector Word 16) (s : State) : (startCompress blk s).host = s.host := rfl

@[simp] theorem writeInitial_H (s : State) : (writeInitial s).H = IV := rfl
@[simp] theorem writeInitial_B (s : State) : (writeInitial s).B = s.B := rfl
@[simp] theorem writeInitial_n (s : State) : (writeInitial s).n = 0 := rfl
@[simp] theorem writeInitial_L (s : State) : (writeInitial s).L = 0 := rfl
@[simp] theorem writeInitial_work (s : State) : (writeInitial s).work = s.work := rfl
@[simp] theorem writeInitial_Wwin (s : State) : (writeInitial s).Wwin = s.Wwin := rfl
@[simp] theorem writeInitial_t (s : State) : (writeInitial s).t = 0 := rfl
@[simp] theorem writeInitial_phase (s : State) : (writeInitial s).phase = .accept := rfl
@[simp] theorem writeInitial_errCause (s : State) : (writeInitial s).errCause = .none := rfl
@[simp] theorem writeInitial_dsel (s : State) : (writeInitial s).dsel = s.dsel := rfl
@[simp] theorem writeInitial_misuse (s : State) : (writeInitial s).misuse = s.misuse := rfl
@[simp] theorem writeInitial_host (s : State) : (writeInitial s).host = s.host := rfl

@[simp] theorem resetEdge_H (s : State) : (resetEdge s).H = IV := rfl
@[simp] theorem resetEdge_B (s : State) : (resetEdge s).B = s.B := rfl
@[simp] theorem resetEdge_n (s : State) : (resetEdge s).n = 0 := rfl
@[simp] theorem resetEdge_L (s : State) : (resetEdge s).L = 0 := rfl
@[simp] theorem resetEdge_work (s : State) : (resetEdge s).work = s.work := rfl
@[simp] theorem resetEdge_Wwin (s : State) : (resetEdge s).Wwin = s.Wwin := rfl
@[simp] theorem resetEdge_t (s : State) : (resetEdge s).t = 0 := rfl
@[simp] theorem resetEdge_phase (s : State) : (resetEdge s).phase = .accept := rfl
@[simp] theorem resetEdge_errCause (s : State) : (resetEdge s).errCause = .none := rfl
@[simp] theorem resetEdge_dsel (s : State) : (resetEdge s).dsel = s.dsel := rfl
@[simp] theorem resetEdge_misuse (s : State) : (resetEdge s).misuse = false := rfl
@[simp] theorem resetEdge_host (s : State) : (resetEdge s).host = s.host := rfl

@[simp] theorem roundEdge_H (s : State) : (roundEdge s).H = s.H := rfl
@[simp] theorem roundEdge_B (s : State) : (roundEdge s).B = s.B := rfl
@[simp] theorem roundEdge_n (s : State) : (roundEdge s).n = s.n := rfl
@[simp] theorem roundEdge_L (s : State) : (roundEdge s).L = s.L := rfl
@[simp] theorem roundEdge_work (s : State) : (roundEdge s).work = round s.t.toNat s.Wwin[0] s.work := rfl
@[simp] theorem roundEdge_Wwin (s : State) : (roundEdge s).Wwin = shiftWindow s.Wwin := rfl
@[simp] theorem roundEdge_t (s : State) : (roundEdge s).t = s.t + 1 := rfl
@[simp] theorem roundEdge_phase (s : State) : (roundEdge s).phase = s.phase := rfl
@[simp] theorem roundEdge_errCause (s : State) : (roundEdge s).errCause = s.errCause := rfl
@[simp] theorem roundEdge_dsel (s : State) : (roundEdge s).dsel = s.dsel := rfl
@[simp] theorem roundEdge_misuse (s : State) : (roundEdge s).misuse = s.misuse := rfl
@[simp] theorem roundEdge_host (s : State) : (roundEdge s).host = s.host := rfl

/-- The feed-forward edge writes `H`, `t` and `phase`, and in CMP_FIN1 `Wwin` and `a..h`; never the rest (R167). -/
theorem feedForwardEdge_frame (s : State) :
    (feedForwardEdge s).B = s.B ∧ (feedForwardEdge s).n = s.n ∧ (feedForwardEdge s).L = s.L ∧
      (feedForwardEdge s).errCause = s.errCause ∧ (feedForwardEdge s).dsel = s.dsel ∧
      (feedForwardEdge s).misuse = s.misuse ∧ (feedForwardEdge s).host = s.host := by
  unfold feedForwardEdge
  cases s.phase <;> exact ⟨rfl, rfl, rfl, rfl, rfl, rfl, rfl⟩

/-- No engine edge writes `B`, `n`, `L` or `err_cause` (R165, R167). -/
theorem engineEdge_frame (s : State) :
    (engineEdge s).B = s.B ∧ (engineEdge s).n = s.n ∧ (engineEdge s).L = s.L ∧
      (engineEdge s).errCause = s.errCause ∧ (engineEdge s).dsel = s.dsel ∧
      (engineEdge s).misuse = s.misuse ∧ (engineEdge s).host = s.host := by
  unfold engineEdge
  split
  · exact ⟨rfl, rfl, rfl, rfl, rfl, rfl, rfl⟩
  · exact feedForwardEdge_frame s

end Sys2Proof.Machine
end

