-- ==== Sys2Proof/Laws/Edge.lean ====
section
/-! SUPPORT. What one edge can do: the inversion lemmas of command acceptance (43_control.md R190). -/

namespace Sys2Proof.Machine

theorem refusal?_eq_none (s : State) : s.refusal? = none ↔ s.Legal := by
  unfold State.refusal? State.Legal
  cases s.phase.used <;> simp

theorem refusal?_some (s : State) (h : ¬ s.Legal) : ∃ r, s.refusal? = some r := by
  cases hr : s.refusal? with
  | some r => exact ⟨r, rfl⟩
  | none => exact absurd ((refusal?_eq_none s).1 hr) h

theorem presentAtEdge_legal (effect : State → State) {s : State} (h : s.Legal) :
    presentAtEdge effect s = .next (if s.cmdReady then effect s else engineEdge s) := by
  unfold presentAtEdge
  rw [(refusal?_eq_none s).2 h]

theorem presentAtEdge_ready (effect : State → State) {s : State} (h : s.Ready) :
    presentAtEdge effect s = .next (effect s) := by
  rw [presentAtEdge_legal effect h.1, if_pos h.2]

/-- A presented command takes effect where it is accepted, waits where a compression runs, and happens nowhere else (R190). -/
theorem presentAtEdge_next (effect : State → State) (s s' : State) :
    presentAtEdge effect s = .next s' ↔ s.Legal ∧ s' = if s.cmdReady then effect s else engineEdge s := by
  by_cases h : s.Legal
  · rw [presentAtEdge_legal effect h, Host.Outcome.next.injEq]
    exact ⟨fun e => ⟨h, e.symm⟩, fun e => e.2.symm⟩
  · obtain ⟨r, hr⟩ := refusal?_some s h
    unfold presentAtEdge
    rw [hr]
    exact ⟨fun e => (by cases e), fun e => absurd e.1 h⟩

/-- What each command does where it is accepted. -/
def effectOf : Instr → State → State
  | .init _ => initEffect
  | .absorb db => absorbEffect db
  | .final _ => finalEffect
  | .rsvd _ => rsvdEffect
  | .read _ => id

theorem exec_decodeCmd (c : BitVec 10) (s : State) :
    exec (decodeCmd c) s = presentAtEdge (effectOf (decodeCmd c)) s := by
  unfold decodeCmd
  split
  · rfl
  split
  · rfl
  split <;> rfl

/-- What the inputs of an edge do where `cmd_ready = 1`. -/
def inputEffect (valid : Bool) (cmd : BitVec 10) (s : State) : State :=
  if valid then effectOf (decodeCmd cmd) s else s

theorem edge_rst (valid : Bool) (cmd : BitVec 10) (s : State) : edge true valid cmd s = .next (resetEdge s) := rfl

theorem edge_no_rst (valid : Bool) (cmd : BitVec 10) (s : State) :
    edge false valid cmd s = presentAtEdge (inputEffect valid cmd) s := by
  cases valid
  · rfl
  · exact exec_decodeCmd cmd s

/-- Everything one edge can do (R190, R290). -/
theorem edge_next (rst valid : Bool) (cmd : BitVec 10) (s s' : State) :
    edge rst valid cmd s = .next s' ↔
      if rst then s' = resetEdge s
      else s.Legal ∧ s' = if s.cmdReady then inputEffect valid cmd s else engineEdge s := by
  cases rst
  · rw [edge_no_rst, presentAtEdge_next]; rfl
  · simp [edge_rst, eq_comm]

theorem edge_legal (valid : Bool) (cmd : BitVec 10) {s : State} (h : s.Legal) :
    edge false valid cmd s = .next (if s.cmdReady then inputEffect valid cmd s else engineEdge s) := by
  rw [edge_no_rst, presentAtEdge_legal _ h]

theorem edge_ready (valid : Bool) (cmd : BitVec 10) {s : State} (h : s.Ready) :
    edge false valid cmd s = .next (inputEffect valid cmd s) := by
  rw [edge_legal valid cmd h.1, if_pos h.2]

theorem cmdReady_of_compressing {s : State} (h : s.phase.compressing = true) : s.cmdReady = false := by
  unfold State.cmdReady
  cases hp : s.phase <;> simp_all [Phase.compressing]

theorem used_of_compressing {s : State} (h : s.phase.compressing = true) : s.phase.used = true := by
  cases hp : s.phase <;> simp_all [Phase.compressing, Phase.used]

theorem phase_of_cmdReady {s : State} (h : s.cmdReady = true) : s.phase = .accept ∨ s.phase = .done := by
  simpa [State.cmdReady] using h

theorem compressing_of_not_cmdReady {s : State} (hl : s.Legal) (h : s.cmdReady = false) :
    s.phase.compressing = true := by
  have hu := hl.1
  unfold State.cmdReady at h
  cases hp : s.phase <;> simp_all [Phase.compressing, Phase.used]

theorem edge_busy (valid : Bool) (cmd : BitVec 10) {s : State} (hc : s.phase.compressing = true) (ht : s.t.toNat ≤ 64) :
    edge false valid cmd s = .next (engineEdge s) := by
  rw [edge_legal valid cmd ⟨used_of_compressing hc, ht⟩, cmdReady_of_compressing hc]
  rfl

theorem ready_of_accept {s : State} (hp : s.phase = .accept) (ht : s.t = 0) : s.Ready := by
  simp [State.Ready, State.Legal, State.cmdReady, hp, ht, Phase.used]

/-- The five kinds of edge, each with the one state it can lead to (R190). -/
theorem edge_cases {rst valid : Bool} {cmd : BitVec 10} {s s' : State} (h : edge rst valid cmd s = .next s') :
    (rst = true ∧ s' = resetEdge s) ∨
      (rst = false ∧ s.Legal ∧ s.cmdReady = true ∧ valid = false ∧ s' = s) ∨
      (rst = false ∧ s.Legal ∧ s.cmdReady = true ∧ valid = true ∧ s' = effectOf (decodeCmd cmd) s) ∨
      (rst = false ∧ s.Legal ∧ s.phase.compressing = true ∧ s.t.toNat < 64 ∧ s' = roundEdge s) ∨
      (rst = false ∧ s.Legal ∧ s.phase.compressing = true ∧ s.t.toNat = 64 ∧ s' = feedForwardEdge s) := by
  rw [edge_next] at h
  cases rst
  · right
    simp only [Bool.false_eq_true, if_false] at h
    obtain ⟨hl, h⟩ := h
    cases hr : s.cmdReady
    · rw [hr] at h
      simp only [Bool.false_eq_true, if_false] at h
      have hc := compressing_of_not_cmdReady hl hr
      right; right
      unfold engineEdge at h
      split at h
      · exact .inl ⟨rfl, hl, hc, by assumption, h⟩
      · rename_i hh
        have ht : ¬ s.t.toNat < 64 := hh
        have := hl.2
        exact .inr ⟨rfl, hl, hc, by omega, h⟩
    · rw [hr] at h
      simp only [if_true] at h
      cases valid
      · exact .inl ⟨rfl, hl, rfl, rfl, h⟩
      · exact .inr (.inl ⟨rfl, hl, rfl, rfl, h⟩)
  · exact .inl ⟨rfl, h⟩

/-- What the feed-forward edge writes, phase by phase (R167). -/
theorem feedForwardEdge_writes (s : State) (hc : s.phase.compressing = true) :
    (feedForwardEdge s).H = feedForward s.H s.work ∧ (feedForwardEdge s).t = 0 ∧
      (s.phase = .cmpAbs → (feedForwardEdge s).phase = .accept) ∧
      (s.phase = .cmpFin2 → (feedForwardEdge s).phase = .done) ∧
      (s.phase = .cmpFin1 → (feedForwardEdge s).phase = .cmpFin2 ∧ (feedForwardEdge s).Wwin = trailerBlock s.L ∧
        (feedForwardEdge s).work = loadWorking (feedForward s.H s.work)) := by
  cases hp : s.phase <;> simp [hp, Phase.compressing] at hc <;> simp [feedForwardEdge, hp]

/-- An edge depends on `host` not at all: it only carries it along. -/
theorem edge_host {rst valid : Bool} {cmd : BitVec 10} {s s' : State} (h : edge rst valid cmd s = .next s') :
    s'.host = s.host := by
  rcases edge_cases h with ⟨_, rfl⟩ | ⟨_, _, _, _, rfl⟩ | ⟨_, _, _, _, rfl⟩ | ⟨_, _, _, _, rfl⟩ | ⟨_, _, _, _, rfl⟩
  · rfl
  · rfl
  · cases decodeCmd cmd <;> simp only [effectOf, initEffect, absorbEffect, finalEffect, rsvdEffect] <;>
      (repeat' split) <;> rfl
  · rfl
  · exact (feedForwardEdge_frame s).2.2.2.2.2.2

end Sys2Proof.Machine
end

