-- ==== Sys2Proof/Laws/Engine.lean ====
section
/-! SUPPORT. The engine's round edges compute the rounds of the pure compression function (42_compression.md R166, R168). -/

namespace Sys2Proof.Machine

theorem scheduleWords_length (blk : Vector Word 16) (m : Nat) : (scheduleWords blk m).length = 16 + m := by
  induction m with
  | zero => simp [scheduleWords]
  | succ m ih => simp only [scheduleWords, List.length_append, ih, List.length_singleton]; omega

/-- The schedule word `W[j]`, for every `j`: the recurrence of R161 does not stop at 63. -/
def scheduleWord (blk : Vector Word 16) (j : Nat) : Word := (scheduleWords blk j).getD j 0

theorem scheduleWords_succ_getD (blk : Vector Word 16) (m j : Nat) (h : j < 16 + m) :
    (scheduleWords blk (m + 1)).getD j 0 = (scheduleWords blk m).getD j 0 := by
  simp only [scheduleWords, List.getD_eq_getElem?_getD]
  rw [List.getElem?_append_left (by rw [scheduleWords_length]; exact h)]

theorem scheduleWords_add_getD (blk : Vector Word 16) (m d j : Nat) (h : j < 16 + m) :
    (scheduleWords blk (m + d)).getD j 0 = (scheduleWords blk m).getD j 0 := by
  induction d with
  | zero => rfl
  | succ d ih => rw [← Nat.add_assoc, scheduleWords_succ_getD blk (m + d) j (by omega), ih]

theorem scheduleWords_getD (blk : Vector Word 16) (m j : Nat) (h : j < 16 + m) :
    (scheduleWords blk m).getD j 0 = scheduleWord blk j := by
  unfold scheduleWord
  rcases Nat.le_total m j with hm | hm
  · have := scheduleWords_add_getD blk m (j - m) j h
    rw [Nat.add_sub_cancel' hm] at this
    exact this.symm
  · have := scheduleWords_add_getD blk j (m - j) j (by omega)
    rw [Nat.add_sub_cancel' hm] at this
    exact this

theorem scheduleWord_block (blk : Vector Word 16) (j : Nat) (h : j < 16) : scheduleWord blk j = blk[j] := by
  rw [← scheduleWords_getD blk 0 j (by omega)]
  simp [scheduleWords, List.getD_eq_getElem?_getD, h]

/-- `W[j+16]` from `W[j..j+15]` (R161). -/
theorem scheduleWord_next (blk : Vector Word 16) (j : Nat) :
    scheduleWord blk (j + 16) =
      scheduleNext (scheduleWord blk (j + 14)) (scheduleWord blk (j + 9)) (scheduleWord blk (j + 1)) (scheduleWord blk j) := by
  rw [← scheduleWords_getD blk (j + 1) (j + 16) (by omega)]
  have hl : (scheduleWords blk j).length = j + 16 := by rw [scheduleWords_length]; omega
  rw [scheduleWords, ← hl, List.getD_eq_getElem?_getD, List.getElem?_concat_length, Option.getD_some, scheduleWords_getD blk j _ (by omega),
    scheduleWords_getD blk j _ (by omega), scheduleWords_getD blk j _ (by omega), scheduleWords_getD blk j _ (by omega)]

theorem schedule_length (blk : Vector Word 16) : (schedule blk).length = 64 := scheduleWords_length blk 48

theorem schedule_getD (blk : Vector Word 16) (j : Nat) (h : j < 64) : (schedule blk).getD j 0 = scheduleWord blk j :=
  scheduleWords_getD blk 48 j (by omega)

theorem shiftWindow_get (w : Vector Word 16) (i : Nat) (h : i < 16) :
    (shiftWindow w)[i] = if h' : i < 15 then w[i + 1] else scheduleNext w[14] w[9] w[1] w[0] := by
  unfold shiftWindow
  interval_cases i <;> rfl

/-- Fields that a round edge keeps, iterated. -/
theorem roundEdge_iterate_frame (s : State) (k : Nat) :
    (roundEdge^[k] s).H = s.H ∧ (roundEdge^[k] s).B = s.B ∧ (roundEdge^[k] s).n = s.n ∧ (roundEdge^[k] s).L = s.L ∧
      (roundEdge^[k] s).phase = s.phase ∧ (roundEdge^[k] s).errCause = s.errCause ∧ (roundEdge^[k] s).dsel = s.dsel ∧
      (roundEdge^[k] s).misuse = s.misuse ∧ (roundEdge^[k] s).host = s.host := by
  induction k with
  | zero => exact ⟨rfl, rfl, rfl, rfl, rfl, rfl, rfl, rfl, rfl⟩
  | succ k ih =>
    rw [Function.iterate_succ_apply']
    simpa using ih

theorem roundEdge_iterate_t (s : State) (k : Nat) (h : s.t.toNat + k ≤ 64) :
    (roundEdge^[k] s).t.toNat = s.t.toNat + k := by
  induction k with
  | zero => rfl
  | succ k ih =>
    rw [Function.iterate_succ_apply', roundEdge_t, BitVec.toNat_add, ih (by omega), show BitVec.toNat (1 : BitVec 7) = 1 from rfl]
    omega

/-- The window invariant (R166), for every round and every entry. -/
theorem roundEdge_iterate_window (s : State) (k i : Nat) (hi : i < 16) :
    (roundEdge^[k] s).Wwin[i] = scheduleWord s.Wwin (k + i) := by
  induction k generalizing i with
  | zero => rw [Nat.zero_add, scheduleWord_block s.Wwin i hi]; rfl
  | succ k ih =>
    rw [Function.iterate_succ_apply']
    simp only [roundEdge_Wwin, shiftWindow_get _ i hi]
    split
    · rw [ih (i + 1) (by omega)]; congr 1; omega
    · have : i = 15 := by omega
      subst this
      rw [ih 14 (by omega), ih 9 (by omega), ih 1 (by omega), ih 0 (by omega), Nat.add_zero,
        show k + 1 + 15 = k + 16 by omega, scheduleWord_next]
      rfl

/-- The round edges run the rounds of R163 on the schedule of R161 (R168). -/
theorem roundEdge_iterate_work (s : State) (ht : s.t = 0) (k : Nat) (hk : k ≤ 64) :
    (roundEdge^[k] s).work = rounds (schedule s.Wwin) s.work k := by
  induction k with
  | zero => rfl
  | succ k ih =>
    have hw := roundEdge_iterate_window s k 0 (by omega)
    rw [Nat.add_zero] at hw
    rw [Function.iterate_succ_apply', roundEdge_work, ih (by omega), hw,
      roundEdge_iterate_t s k (by rw [ht]; simp; omega), rounds, schedule_getD _ _ (by omega), ht]
    simp

/-- While a compression runs and `t < 64`, an edge without reset is a round edge, whatever the command inputs (R165). -/
theorem runEdges_rounds (ins : List (Bool × Bool × BitVec 10)) (s : State) (hrst : ∀ x ∈ ins, x.1 = false)
    (hc : s.phase.compressing = true) (hk : s.t.toNat + ins.length ≤ 64) :
    runEdges ins s = .next (roundEdge^[ins.length] s) := by
  induction ins generalizing s with
  | nil => rfl
  | cons x ins ih =>
    obtain ⟨rst, valid, cmd⟩ := x
    have hr : rst = false := hrst _ (List.mem_cons_self ..)
    subst hr
    simp only [List.length_cons] at hk
    have he : engineEdge s = roundEdge s := if_pos (show s.t.toNat < 64 by omega)
    have ht : (roundEdge s).t.toNat = s.t.toNat + 1 := by
      rw [roundEdge_t, BitVec.toNat_add]
      simp; omega
    simp only [runEdges, edge_busy valid cmd hc (by omega), he]
    rw [ih (roundEdge s) (fun x hx => hrst x (List.mem_cons_of_mem _ hx)) hc (by omega)]
    rfl

theorem runEdges_append (xs ys : List (Bool × Bool × BitVec 10)) (s s' : State) (h : runEdges xs s = .next s') :
    runEdges (xs ++ ys) s = runEdges ys s' := by
  induction xs generalizing s with
  | nil => simp only [runEdges, Host.Outcome.next.injEq] at h; rw [h]; rfl
  | cons x xs ih =>
    obtain ⟨rst, valid, cmd⟩ := x
    simp only [List.cons_append, runEdges] at h ⊢
    split at h
    · exact ih _ h
    · cases h
    · cases h

/-- A whole compression: 64 round edges and the feed-forward edge, whatever the command inputs (R168, R169). -/
theorem runEdges_compression (ins : List (Bool × Bool × BitVec 10)) (s : State) (hrst : ∀ x ∈ ins, x.1 = false)
    (hc : s.phase.compressing = true) (ht : s.t = 0) (hk : ins.length = 65) :
    runEdges ins s = .next (feedForwardEdge (roundEdge^[64] s)) := by
  obtain ⟨x, hx⟩ : ∃ x, ins.drop 64 = [x] := by
    match h : ins.drop 64 with
    | [x] => exact ⟨x, rfl⟩
    | [] | _ :: _ :: _ => have := congrArg List.length h; simp at this; omega
  obtain ⟨rst, valid, cmd⟩ := x
  have hr : rst = false := hrst _ (List.mem_of_mem_drop (i := 64) (by rw [hx]; exact List.mem_singleton.2 rfl))
  subst hr
  have hlen : (ins.take 64).length = 64 := by simp; omega
  have h0 : s.t.toNat = 0 := by rw [ht]; rfl
  have h64 : (roundEdge^[64] s).t.toNat = 64 := by rw [roundEdge_iterate_t s 64 (by omega), h0]
  have hp : (roundEdge^[64] s).phase = s.phase := (roundEdge_iterate_frame s 64).2.2.2.2.1
  have hfirst := runEdges_rounds (ins.take 64) s (fun x hx => hrst x (List.mem_of_mem_take hx)) hc (by omega)
  rw [hlen] at hfirst
  rw [← List.take_append_drop 64 ins, runEdges_append _ _ _ _ hfirst, hx]
  generalize roundEdge^[64] s = s64 at h64 hp
  have hc64 : s64.phase.compressing = true := by rw [hp]; exact hc
  simp only [runEdges]
  rw [edge_busy valid cmd hc64 (by omega), engineEdge, if_neg (show ¬ s64.t.toNat < 64 by omega)]

/-- The digest after a compression is `Compress` of the digest before it (R168). -/
theorem feedForward_rounds (s : State) (ht : s.t = 0) (hw : s.work = loadWorking s.H) :
    feedForward (roundEdge^[64] s).H (roundEdge^[64] s).work = compress s.H s.Wwin := by
  rw [(roundEdge_iterate_frame s 64).1, roundEdge_iterate_work s ht 64 (le_refl _), hw]
  rfl

/-- From the start of a compression, 65 edges without reset are its edges, whatever the command inputs (R168, R169). -/
theorem runEdges_compressionEdges (ins : List (Bool × Bool × BitVec 10)) (s : State) (hrst : ∀ x ∈ ins, x.1 = false)
    (hc : s.phase.compressing = true) (ht : s.t = 0) (hk : ins.length = 65) :
    runEdges ins s = .next (compressionEdges s) :=
  runEdges_compression ins s hrst hc ht hk

/-- A compression writes `Compress(H, Wwin)` to `H` (R168). -/
theorem compressionEdges_H (s : State) (hc : s.phase.compressing = true) (ht : s.t = 0) (hw : s.work = loadWorking s.H) :
    (compressionEdges s).H = compress s.H s.Wwin := by
  rw [← feedForward_rounds s ht hw]
  have hp : (roundEdge^[64] s).phase = s.phase := (roundEdge_iterate_frame s 64).2.2.2.2.1
  exact (feedForwardEdge_writes _ (by rw [hp]; exact hc)).1

/-- R168 for a compression that StartCompress starts. -/
theorem compressionEdges_startCompress (blk : Vector Word 16) (s : State) (hc : s.phase.compressing = true) :
    (compressionEdges (startCompress blk s)).H = compress s.H blk :=
  compressionEdges_H _ hc rfl rfl

/-- R168 for the second final compression, which the feed-forward edge of CMP_FIN1 starts on the trailer block. -/
theorem compressionEdges_second (s : State) (hp : s.phase = .cmpFin1) :
    (compressionEdges (compressionEdges s)).H = compress (compressionEdges s).H (trailerBlock s.L) := by
  obtain ⟨_, _, _, hL, hp64, _⟩ := roundEdge_iterate_frame s 64
  rw [hp] at hp64
  obtain ⟨hH, ht, _, _, hnext⟩ := feedForwardEdge_writes (roundEdge^[64] s) (by rw [hp64]; rfl)
  obtain ⟨hphase, hwin, hwork⟩ := hnext hp64
  have hstart : (compressionEdges s).phase.compressing = true := by rw [compressionEdges, hphase]; rfl
  rw [compressionEdges_H _ hstart ht (hwork.trans (congrArg loadWorking hH).symm)]
  exact congrArg _ (hwin.trans (congrArg trailerBlock hL))

end Sys2Proof.Machine
end

