-- ==== Sys2Proof/Laws/Message.lean ====
section
/-! SUPPORT. Reading the blocks of a message and of its padding byte by byte (44_finalization.md R211, R214, R216). -/

namespace Sys2Proof.Machine

theorem bufRead_blockAt (bytes : List Byte) (q : Nat) (i : BitVec 6) :
    bufRead (blockAt bytes q) i = bytes.getD (64 * q + i.toNat) 0 := by
  rw [blockAt, bufRead_wordsOf, Vector.getElem_ofFn]

/-- The chaining value after `q` blocks depends on the first `64 q` bytes only. -/
theorem chainingValue_congr (l m : List Byte) (q : Nat) (h : ∀ i, i < 64 * q → l.getD i 0 = m.getD i 0) :
    chainingValue l q = chainingValue m q := by
  induction q with
  | zero => rfl
  | succ q ih =>
    have hb : blockAt l q = blockAt m q := by
      apply buffer_ext
      intro i
      have := i.isLt
      rw [bufRead_blockAt, bufRead_blockAt, h _ (by omega)]
    rw [chainingValue, chainingValue, ih (fun i hi => h i (by omega)), hb]

theorem getD_append_left (l m : List Byte) (i : Nat) (h : i < l.length) : (l ++ m).getD i 0 = l.getD i 0 := by
  rw [List.getD_eq_getElem?_getD, List.getD_eq_getElem?_getD, List.getElem?_append_left h]

theorem getD_append_right (l m : List Byte) (i : Nat) (h : l.length ≤ i) : (l ++ m).getD i 0 = m.getD (i - l.length) 0 := by
  rw [List.getD_eq_getElem?_getD, List.getD_eq_getElem?_getD, List.getElem?_append_right h]

theorem paddedMessage_length (msg : List Byte) :
    (paddedMessage msg).length = msg.length + 1 + padZeros msg.length + 8 := by
  simp [paddedMessage]
  omega

/-- Every byte of the padded message (R216). -/
theorem paddedMessage_getD (msg : List Byte) (j : Nat) :
    (paddedMessage msg).getD j 0 =
      if j < msg.length then msg.getD j 0
      else if j = msg.length then 0x80
      else if j < msg.length + 1 + padZeros msg.length then 0
      else if j < msg.length + 1 + padZeros msg.length + 8 then
        be64Byte (BitVec.ofNat 64 (8 * msg.length)) (j - (msg.length + 1 + padZeros msg.length))
      else 0 := by
  unfold paddedMessage
  split
  · rename_i h
    rw [getD_append_left _ _ _ (by simp; omega), getD_append_left _ _ _ (by simp; omega), getD_append_left _ _ _ h]
  split
  · rename_i h1 h
    rw [getD_append_left _ _ _ (by simp; omega), getD_append_left _ _ _ (by simp; omega),
      getD_append_right _ _ _ (by omega), h, Nat.sub_self]
    rfl
  split
  · rename_i h1 h2 h
    rw [getD_append_left _ _ _ (by simp; omega), getD_append_right _ _ _ (by simp; omega), List.getD_eq_getElem?_getD,
      List.getElem?_replicate]
    split <;> rfl
  · rename_i h1 h2 h3
    rw [getD_append_right _ _ _ (by simp; omega)]
    rw [show (msg ++ [(0x80 : Byte)] ++ List.replicate (padZeros msg.length) (0 : Byte)).length =
      msg.length + 1 + padZeros msg.length by simp; omega]
    split
    · rename_i h
      rw [List.getD_eq_getElem?_getD, List.getElem?_eq_getElem (by simp; omega)]
      simp [be64]
    · rw [List.getD_eq_getElem?_getD, List.getElem?_eq_none (by simp; omega)]
      rfl

theorem trailerBlock_getElem (L : BitVec 64) (j : Nat) (hj : j < 16) :
    (trailerBlock L)[j] = if j = 14 then L.extractLsb' 32 32 else if j = 15 then L.extractLsb' 0 32 else 0 := by
  interval_cases j <;> rfl

/-- Every byte of the trailer-only block (R214, R54). -/
theorem bufRead_trailerBlock (L : BitVec 64) (i : BitVec 6) :
    bufRead (trailerBlock L) i = if 56 ≤ i.toNat then be64Byte L (i.toNat - 56) else 0 := by
  have hi := i.isLt
  unfold bufRead
  simp only [Fin.getElem_fin, slotOf_val, laneIx_eq]
  rw [trailerBlock_getElem _ _ (by omega)]
  by_cases h : 56 ≤ i.toNat
  · rw [if_pos h]
    have : i.toNat / 4 = 14 ∨ i.toNat / 4 = 15 := by omega
    ext k hk
    rw [laneOf_getElem _ _ _ hk]
    rcases this with e | e
    · rw [e, if_pos rfl]
      simp only [be64Byte, BitVec.getElem_extractLsb', BitVec.getLsbD_extractLsb']
      rw [show 56 - 8 * (i.toNat - 56) + k = 32 + (24 - 8 * (i.toNat % 4) + k) by omega]
      simp
      omega
    · rw [e, if_neg (by omega), if_pos rfl]
      simp only [be64Byte, BitVec.getElem_extractLsb', BitVec.getLsbD_extractLsb']
      rw [show 56 - 8 * (i.toNat - 56) + k = 24 - 8 * (i.toNat % 4) + k by omega]
      simp
      omega
  · rw [if_neg h, if_neg (by omega), if_neg (by omega)]
    ext k hk
    rw [laneOf_getElem _ _ _ hk]
    simp

end Sys2Proof.Machine
end

