-- ==== Sys2Proof/Laws/PerInstr.lean ====
section
/-! SUPPORT. Statements made per instruction: the encoding fits the instruction's row of opcode_table.json. -/

namespace Sys2Proof.Laws.Encoding

/-- The `match` column of the row, under the row's mask 0x300; none for READ, whose row has no fixed bits. -/
def tableMatch : Instr → Option (BitVec 10)
  | .init _ => some 0x000
  | .absorb _ => some 0x100
  | .final _ => some 0x200
  | .rsvd _ => some 0x300
  | .read _ => none

/-- The instruction's word has the fixed bits of its row, in the format of its row. -/
def Statement (i : Instr) : Prop :=
  match tableMatch i with
  | some m => ∃ w, encode i = .cmd w ∧ w &&& 0x300 = m
  | none => ∃ k, encode i = .dsel k

/-- The mask keeps `op` and clears `data`. -/
theorem commandWord_mask (op : BitVec 2) (data : Byte) : commandWord op data &&& 0x300 = commandWord op 0 := by
  apply BitVec.eq_of_getLsbD_eq
  intro i hi
  rw [BitVec.getLsbD_and, commandWord_getLsbD, commandWord_getLsbD]
  interval_cases i <;> simp

theorem init (data : Byte) : Statement (.init data) := ⟨_, rfl, commandWord_mask _ _⟩
theorem absorb (db : Byte) : Statement (.absorb db) := ⟨_, rfl, commandWord_mask _ _⟩
theorem final (data : Byte) : Statement (.final data) := ⟨_, rfl, commandWord_mask _ _⟩
theorem rsvd (data : Byte) : Statement (.rsvd data) := ⟨_, rfl, commandWord_mask _ _⟩
theorem read (i : BitVec 3) : Statement (.read i) := ⟨i, rfl⟩

end Sys2Proof.Laws.Encoding
end

