-- ==== Sys2Proof/Laws/Run.lean ====
section
/-! SUPPORT. Runs of steps: unrolling `Host.Core.run`, and the step of a host that holds a command or waits. -/

namespace Sys2Proof.Machine

theorem Core_run_succ (M : Host.Core) (k : Nat) (s u : M.State) (h : M.step s = .next u) : M.run (k + 1) s = M.run k u := by
  simp only [Host.Core.run, h]

theorem Core_run_succ_inv (M : Host.Core) (k : Nat) (s u : M.State) (h : M.run (k + 1) s = .next u) :
    ∃ v, M.step s = .next v ∧ M.run k v = .next u := by
  simp only [Host.Core.run] at h
  split at h
  · rename_i v hv
    exact ⟨v, hv, h⟩
  · cases h
  · cases h

theorem core_run_succ {s u : State} (k : Nat) (h : step s = .next u) :
    Host.Core.run core (k + 1) s = Host.Core.run core k u :=
  Core_run_succ core k s u h

theorem core_run_add (a b : Nat) (s u : State) (h : Host.Core.run core a s = .next u) :
    Host.Core.run core (a + b) s = Host.Core.run core b u := by
  induction a generalizing s with
  | zero => cases h; rw [Nat.zero_add]
  | succ a ih =>
    obtain ⟨v, hv, hu⟩ := Core_run_succ_inv core a s u h
    rw [Nat.add_right_comm, core_run_succ _ hv, ih v hu]

theorem step_issue_ready {s : State} (cmd : BitVec 10) (rest : List Directive) (hh : s.host = .issue cmd :: rest)
    (hr : s.cmdReady = true) : step s = exec (decodeCmd cmd) { s with host := rest } := by
  unfold step hostStep
  rw [hh]
  simp only [hr, if_true]
  rfl

/-- While a compression runs, a host that holds a command or waits for `done` just lets the engine step (R294, R88). -/
theorem step_busy {s : State} (hc : s.phase.compressing = true) (ht : s.t.toNat ≤ 64)
    (hh : (∃ cmd rest, s.host = .issue cmd :: rest) ∨ ∃ rest, s.host = .waitDone :: rest) :
    step s = .next (engineEdge s) := by
  have hd : s.done = false := by
    unfold State.done
    cases hp : s.phase <;> rw [hp] at hc <;> first | rfl | cases hc
  rcases hh with ⟨cmd, rest, h⟩ | ⟨rest, h⟩
  · unfold step hostStep
    rw [h]
    simp only [cmdReady_of_compressing hc]
    exact edge_busy true cmd hc ht
  · unfold step hostStep
    rw [h]
    simp only [hd]
    exact edge_busy false 0 hc ht

end Sys2Proof.Machine
end

