-- ==== Sys2Proof/Tests/Slice0.lean ====
section
/-! SUPPORT. Tests whose expected results stand in 95_test_vectors.md or in the rules named, ill-formed terms that the checks
refuse, and for each statement with hypotheses a state and operands that meet them, at the edges of their ranges. -/

namespace Sys2Proof.Tests

open Sys2Proof.Machine

/-! ### States used below -/

/-- A state that absorbs, with `n` bytes of 0xFF-filled buffer (vector A3's draw) counted in `n` and `L`. -/
def absorbing (n : BitVec 6) : State :=
  { State.reset with B := Vector.replicate 16 0xFFFFFFFF, n := n, L := 8 * n.setWidth 64 }

/-- The block of "abc" (vector F3). -/
def abcBlock : Vector Word 16 := #v[0x61626380, 0, 0, 0, 0, 0, 0, 0, 0, 0, 0, 0, 0, 0, 0, 0x18]

/-- A state in a compressing phase at count `t`, on the block of "abc", the working registers as they start. -/
def compressing (p : Phase) (t : BitVec 7) : State :=
  { State.reset with phase := p, t := t, Wwin := abcBlock, work := loadWorking IV, L := 24 }

/-- The digest of "abc" (vector K9). -/
def abcDigest : Vector Word 8 :=
  #v[0xBA7816BF, 0x8F01CFEA, 0x414140DE, 0x5DAE2223, 0xB00361A3, 0x96177A9C, 0xB410FF61, 0xF20015AD]

/-- After a finished hash of "abc". -/
def finished : State := { State.reset with phase := .done, H := abcDigest, L := 24 }

/-- A state that has absorbed `msg`, of less than one block. -/
def holding (msg : List Byte) : State :=
  { State.reset with B := blockAt msg 0, n := BitVec.ofNat 6 msg.length, L := BitVec.ofNat 64 (8 * msg.length) }

/-- The outcome is a next state with this property. -/
def goesTo (o : Host.Outcome State Fault Refusal) (p : State → Bool) : Bool :=
  match o with
  | .next s => p s
  | .fault _ => false
  | .refused _ => false

/-! ### Decoding: words written out bit by bit (30_encoding.md R80, R81, R85) -/

theorem test_decode_init : decode (.cmd 0b0000000000#10) = .init 0x00 := by decide
theorem test_decode_init_data_ignored_bits_kept : decode (.cmd 0b0011111111#10) = .init 0xFF := by decide
theorem test_decode_absorb : decode (.cmd 0b0110111110#10) = .absorb 0xBE := by decide
theorem test_decode_final : decode (.cmd 0b1000000000#10) = .final 0x00 := by decide
theorem test_decode_rsvd : decode (.cmd 0b1110101010#10) = .rsvd 0xAA := by decide
theorem test_decode_read : decode (.dsel 0b110#3) = .read 6 := by decide
theorem test_refuse_wide_command : decodeRaw 16 0x400 = .error .commandTooWide := by decide
theorem test_refuse_wide_select : decodeRaw 8 8 = .error .selectTooWide := by decide
theorem test_refuse_long_word : decodeRaw 24 0 = .error .noSuchFormat := by decide
theorem test_table_words : decodeTableWord 16 0x1EF = some (.absorb 0xEF) ∧ decodeTableWord 8 7 = some (.read 7) := by decide

/-! ### WellFormed: what its checks refuse -/

theorem test_illformed_absorb : (SourceLine.absorb 256).wellFormed = false := by decide
theorem test_illformed_rsvd : (SourceLine.rsvd 256).wellFormed = false := by decide
theorem test_illformed_read : (SourceLine.read 8).wellFormed = false := by decide
theorem test_illformed_update : (SourceLine.update [0, 256]).wellFormed = false := by decide
theorem test_illformed_hash : (SourceLine.hash [256]).wellFormed = false := by decide
theorem test_not_assembler_form :
    (Instr.init 1).assemblerForm = false ∧ (Instr.final 1).assemblerForm = false := by decide

/-! ### Word functions (vectors W3 to W9, A7, W14) -/

theorem test_rotates : rotr 0x12345678 8 = 0x78123456 ∧ rotr 1 1 = 0x80000000 ∧ shr 0x80000000 31 = 1 := by decide
theorem test_choose_majority : ch 0x510E527F 0x9B05688C 0x1F83D9AB = 0x1F85C98C ∧
    maj 0x6A09E667 0xBB67AE85 0x3C6EF372 = 0x3A6FE667 := by decide
theorem test_sigmas : bigSigma0 0x61626380 = 0x8DD59276 ∧ bigSigma1 0x61626380 = 0xC0B865F2 ∧
    smallSigma0 0x61626380 = 0x940E90EF ∧ smallSigma1 0x61626380 = 0x7DA86405 := by decide

/-! ### ABSORB (vectors A1 to A10) -/

/-- A3: the first byte of a group clears the word, whatever it held. -/
theorem test_absorb_clears_group :
    goesTo (exec (.absorb 0x01) (absorbing 0)) (fun s => s.B[0] == 0x01000000 && s.B[1] == 0xFFFFFFFF && s.n == 1) = true := by
  decide

/-- A7 and A9: the carry of `L` crosses bit 31, and the counter wraps. -/
theorem test_absorb_length_carries :
    goesTo (exec (.absorb 0) { State.reset with L := 0xFFFFFFF8 }) (fun s => s.L == 0x100000000) = true ∧
    goesTo (exec (.absorb 0x41) { State.reset with L := 0xFFFFFFFFFFFFFFF8 }) (fun s => s.L == 0) = true := by
  decide

/-- A6's last byte: the block is full, `n` never holds 64. -/
theorem test_absorb_fills :
    goesTo (exec (.absorb 0x3F) (absorbing 63)) (fun s => s.n == 0 && s.L == 0x200 && s.phase == .cmpAbs && !s.cmdReady &&
      s.Wwin[15] == 0xFFFFFF3F && s.work.a == 0x6A09E667) = true := by
  decide

/-- A10: in DONE the byte is discarded and the cause recorded. -/
theorem test_absorb_after_final :
    goesTo (exec (.absorb 0) finished) (· == { finished with errCause := .absorbAfterFinal, misuse := true }) = true := by decide

/-- F13. -/
theorem test_final_after_final :
    goesTo (exec (.final 0) finished) (· == { finished with errCause := .finalAfterFinal, misuse := true }) = true := by decide

/-! ### FINAL (vectors F2, F6, F13) -/

/-- F2: the padded block of BE EF. -/
theorem test_final_pads :
    goesTo (exec (.final 0) { State.reset with B := #v[0xBEEF0000, 1, 2, 3, 4, 5, 6, 7, 8, 9, 10, 11, 12, 13, 14, 15], n := 2, L := 16 })
      (fun s => s.Wwin == #v[0xBEEF8000, 0, 0, 0, 0, 0, 0, 0, 0, 0, 0, 0, 0, 0, 0, 0x10] && s.phase == .cmpFin2) = true := by
  decide

/-- F5, F6: 55 bytes leave room for the trailer, 56 do not. -/
theorem test_final_boundary :
    goesTo (exec (.final 0) (absorbing 55)) (fun s => s.phase == .cmpFin2 && s.Wwin[13] == 0xFFFFFF80 && s.Wwin[15] == 0x1B8) = true ∧
    goesTo (exec (.final 0) (absorbing 56)) (fun s => s.phase == .cmpFin1 && s.Wwin[14] == 0x80000000 && s.Wwin[15] == 0) = true := by
  decide

/-! ### INIT, RSVD, READ (vectors C1, C4, O1, O2, X2) -/

/-- C1. -/
theorem test_init_after_hash :
    goesTo (exec (.init 0) finished) (fun s => s.H == IV && s.L == 0 && !s.done && s.phase == .accept) = true := by decide

/-- C4, and X2: the first cause is kept. -/
theorem test_rsvd_records :
    goesTo (exec (.rsvd 0xAA) State.reset) (· == { State.reset with errCause := .reservedOp }) = true ∧
    goesTo (exec (.rsvd 0) { finished with errCause := .absorbAfterFinal }) (fun s => s.errCause == .absorbAfterFinal) = true := by
  decide

/-- O1, O2. -/
theorem test_read_words :
    goesTo (exec (.read 3) State.reset) (fun s => s.outputs == some ⟨true, false, false, 0, 0xA54FF53A⟩) = true ∧
    goesTo (exec (.read 7) finished) (fun s => s.outputs == some ⟨true, true, false, 0, 0xF20015AD⟩) = true := by
  decide

/-! ### The engine (vectors K4, K8 and K9, F10) -/

/-- K4: the first round edge of "abc"; the command presented at it is ignored. -/
theorem test_round_edge :
    goesTo (edge false true 0 (compressing .cmpFin2 0)) (fun s => s.t == 1 && s.Wwin[0] == 0 && s.Wwin[15] == 0x61626380 &&
      s.work == ⟨0x5D6AEBCD, 0x6A09E667, 0xBB67AE85, 0x3C6EF372, 0xFA2A4622, 0x510E527F, 0x9B05688C, 0x1F83D9AB⟩) = true := by
  decide

/-- K8, K9: the feed-forward edge of "abc". -/
theorem test_feed_forward_edge :
    goesTo (edge false false 0
      { compressing .cmpFin2 64 with
        work := ⟨0x506E3058, 0xD39A2165, 0x04D24D6C, 0xB85E2CE9, 0x5EF50F24, 0xFB121210, 0x948D25B6, 0x961F4894⟩ })
      (fun s => s.H == abcDigest && s.phase == .done && s.t == 0) = true := by
  decide

/-- R167: in CMP_FIN1 the second final compression starts from the sums, on the trailer. -/
theorem test_feed_forward_starts_trailer :
    goesTo (edge false false 0 { compressing .cmpFin1 64 with L := 0x1C0 })
      (fun s => s.phase == .cmpFin2 && s.Wwin[15] == 0x1C0 && s.Wwin[0] == 0 && s.work.a == 0xD413CCCE) = true := by
  decide

/-- T1, T2: a reset edge during a compression, with a command presented. -/
theorem test_reset_edge :
    goesTo (edge true true 0x161 (compressing .cmpAbs 30))
      (· == { State.reset with Wwin := abcBlock, work := loadWorking IV }) = true := by decide

/-- K9, and the digest of 56 times 'a' in section 2.9: messages with one and with two final blocks. -/
theorem test_digest_of : digestOf [0x61, 0x62, 0x63] = abcDigest := by decide +kernel
theorem test_digest_of_two_blocks : digestOf (List.replicate 56 0x61) =
    #v[0xB35439A4, 0xAC6F0948, 0xB6D6F9E3, 0xC6AF0F5F, 0x590CE20F, 0x1BDE7090, 0xEF797068, 0x6EC6738A] := by decide +kernel

/-! ### The assembler (30_encoding.md R86 to R89) and rendering (R244) -/

theorem test_parse_absorb : parseLine "ABSORB 0xBE   ; 0x1BE" = some (.absorb 0xBE) ∧ parseLine "ABSORB 'a'" = some (.absorb 97) := by
  decide
theorem test_parse_update : parseLine "UPDATE \"abc\"" = some (.update [97, 98, 99]) ∧ parseLine "ABSORB" = none := by decide
theorem test_parse_text_only_for_bytes : parseLine "ABSORB \"a\"" = none ∧ parseLine "INIT \"\"" = none ∧
    parseLine "UPDATE 1, \"a\"" = none ∧ parseLine "HASH \"abc\"" = some (.hash [97, 98, 99]) := by decide
theorem test_parse_update_literals : parseLine "UPDATE 0xBE, 'a', 7" = some (.update [0xBE, 97, 7]) ∧
    parseLine "UPDATE" = some (.update []) := by decide
theorem test_assemble_p2 : assemble [.reset, .absorb 0xBE, .idle 3, .absorb 0xEF, .final] =
    some [.reset, .issue 0x1BE, .idle 3, .issue 0x1EF, .issue 0x200] := by decide
theorem test_assemble_refuses : assemble [.init, .absorb 256] = none := by decide
theorem test_render_first_word : (renderDigest abcDigest).take 8 = ['b', 'a', '7', '8', '1', '6', 'b', 'f'] := by decide
theorem test_edges_of : edgesOf 0 = 66 ∧ edgesOf 55 = 121 ∧ edgesOf 56 = 187 ∧ edgesOf 120 = 316 := by decide

/-! ### Witnesses: for each statement with hypotheses, states and operands that meet them -/

/-- An edge at which nothing is presented and reset is not asserted. -/
def quiet : EdgeInputs := (false, false, 0)

theorem noReset_quiet (k : Nat) : NoReset (List.replicate k quiet) := by
  intro x hx
  rw [List.eq_of_mem_replicate hx]
  rfl

/-- RotateAndShiftMoveBits, at both ends of its ranges. -/
theorem witness_rotate : (rotr 0x80000001 1).getLsbD 0 = (0x80000001 : Word).getLsbD 1 ∧ (0 < 1 ∧ 1 < 32 ∧ 0 < 32) ∧
    (rotr 0x80000001 31).getLsbD 31 = (0x80000001 : Word).getLsbD ((31 + 31) % 32) ∧ (0 < 31 ∧ 31 < 32) := by decide

/-- AbsorbAppendsOneByte, at `n = 0` and `n = 62`. -/
theorem witness_absorb_appends : ∀ n ∈ [(0 : BitVec 6), 62],
    (absorbing n).Legal ∧ (absorbing n).phase = .accept ∧ (absorbing n).n.toNat < 63 := by decide

/-- AbsorbFillsBlockAndStarts. -/
theorem witness_absorb_fills : (absorbing 63).Legal ∧ (absorbing 63).phase = .accept ∧ (absorbing 63).n = 63 := by decide

/-- UseAfterFinalizeOnlyRecords, with no cause recorded and with one recorded. -/
theorem witness_use_after_finalize : ∀ c ∈ [ErrCause.none, .reservedOp],
    ({ finished with errCause := c } : State).Legal ∧ ({ finished with errCause := c } : State).phase = .done := by decide

/-- ScheduleFollowsRecurrence, at both ends of its range. -/
theorem witness_schedule : (16 ≤ 16 ∧ 16 < 64 ∧ 16 ≤ 63 ∧ 63 < 64) ∧ (schedule abcBlock).getD 16 0 = 0x61626380 ∧
    (schedule abcBlock).getD 17 0 = 0x000F0000 := by decide

/-- RoundEdgeFollowsRule, in each compressing phase at the first and the last round. -/
theorem witness_round_edge : ∀ p ∈ [Phase.cmpAbs, .cmpFin1, .cmpFin2], ∀ t ∈ [(0 : BitVec 7), 63],
    (compressing p t).phase.compressing = true ∧ (compressing p t).t.toNat < 64 := by decide

/-- FeedForwardEdgeFollowsRule, in each compressing phase, one for each of its clauses. -/
theorem witness_feed_forward : ∀ p ∈ [Phase.cmpAbs, .cmpFin1, .cmpFin2],
    (compressing p 64).phase.compressing = true ∧ (compressing p 64).t = 64 ∧ (compressing p 64).phase = p := by decide

/-- WindowHoldsSchedule, for no edge and for 64 edges, with an index in its clause's range. -/
theorem witness_window : ∀ k ∈ [0, 64], NoReset (List.replicate k quiet) ∧ (List.replicate k quiet).length ≤ 64 ∧
    (compressing .cmpAbs 0).phase.compressing = true ∧ (compressing .cmpAbs 0).t = 0 :=
  fun k hk => ⟨noReset_quiet k, by rw [List.length_replicate]; revert k; decide, by decide, by decide⟩
theorem witness_window_index : (0 < 16 ∧ 0 + 0 ≤ 63) ∧ (15 < 16 ∧ 48 + 15 ≤ 63) ∧ (0 < 16 ∧ 63 + 0 ≤ 63) := by decide

/-- EngineComputesCompress, in each compressing phase, one for each of its clauses. -/
theorem witness_engine : NoReset (List.replicate 65 quiet) ∧ (List.replicate 65 quiet).length = 65 ∧
    ∀ p ∈ [Phase.cmpAbs, .cmpFin1, .cmpFin2],
      (compressing p 0).phase.compressing = true ∧ (compressing p 0).t = 0 ∧ (compressing p 0).phase = p ∧
      (compressing p 0).work = ⟨IV[0], IV[1], IV[2], IV[3], IV[4], IV[5], IV[6], IV[7]⟩ ∧ (compressing p 0).H = IV :=
  ⟨noReset_quiet 65, List.length_replicate, by decide⟩

/-- BusyForTheTableOfCycles: each row of the table, at the end of its interval. -/
theorem witness_busy : ∀ x ∈ [(Instr.init 0, absorbing 5, 0), (.rsvd 1, finished, 0), (.absorb 1, absorbing 62, 0),
      (.absorb 1, absorbing 63, 65), (.final 0, absorbing 55, 65), (.final 0, absorbing 56, 130), (.final 0, finished, 0)],
    x.2.1.Ready ∧ (∀ k, x.1 ≠ .read k) ∧ goesTo (exec x.1 x.2.1) (fun _ => true) = true ∧
      x.2.2 = busyCycles x.1 x.2.1 := by decide
theorem witness_busy_inputs (k : Nat) : NoReset (List.replicate k quiet) ∧ (List.replicate k quiet).length = k :=
  ⟨noReset_quiet k, List.length_replicate⟩

/-- EdgeDispatch, one state for each clause. -/
theorem witness_edge_dispatch : (absorbing 5).Ready ∧ finished.Ready ∧
    ((compressing .cmpFin1 63).phase.compressing = true ∧ (compressing .cmpFin1 63).t.toNat < 64) ∧
    ((compressing .cmpFin1 64).phase.compressing = true ∧ (compressing .cmpFin1 64).t.toNat = 64) := by decide

/-- InitStartsNewHash, InitIsIdempotent, ReservedCommandOnlyRecords, InitAndResetAbsorbNothing: a message open, and one
finished, without and with a cause recorded. -/
theorem witness_ready : (absorbing 5).Ready ∧ finished.Ready ∧
    ({ absorbing 5 with errCause := .reservedOp } : State).Ready ∧
    goesTo (exec (.init 0) (absorbing 5)) (fun _ => true) = true := by decide

/-- CommandIgnoredWhileBusy, at the first round and at the feed-forward edge. -/
theorem witness_command_ignored : (∀ k, Instr.init 0 ≠ .read k) ∧ ∀ t ∈ [(0 : BitVec 7), 64],
    (compressing .cmpAbs t).phase.compressing = true ∧ (compressing .cmpAbs t).t.toNat ≤ 64 := by decide

/-- OutputsForgetEverythingBeforeInit: two instances with different pasts, one reset in a compression, one given INIT. -/
theorem witness_forget : ∃ t₁ t₂ : State,
    t₁ = resetEdge (compressing .cmpAbs 30) ∧
    (finished.Ready ∧ ∃ data, exec (.init data) finished = .next t₂) ∧ t₁ ≠ t₂ :=
  ⟨_, initEffect finished, rfl, ⟨by decide, 0, presentAtEdge_ready initEffect (s := finished) (by decide)⟩, by decide⟩

/-- PhaseFollowsTransitionTable, ErrorCauseAfterEdge, MisuseBitMarksUseAfterFinalize: edges in every used phase, with and
without a reset and a command, at the boundaries of the table's conditions. -/
theorem witness_edges : ∀ s ∈ [absorbing 62, absorbing 63, absorbing 55, absorbing 56, compressing .cmpAbs 63,
      compressing .cmpAbs 64, compressing .cmpFin1 63, compressing .cmpFin1 64, compressing .cmpFin2 63,
      compressing .cmpFin2 64, finished],
    goesTo (edge false true 0x161 s) (fun _ => true) = true ∧ goesTo (edge false true 0x200 s) (fun _ => true) = true ∧
      goesTo (edge true false 0 s) (fun _ => true) = true := by decide

/-- OnlyTheNamedEdgesWrite: an edge for each clause that changes its register. -/
theorem witness_writes :
    goesTo (edge false true 0x000 finished) (fun s => s.H != finished.H && s.L != finished.L) = true ∧
    goesTo (edge false true 0x161 (absorbing 5)) (fun s => s.B != (absorbing 5).B && s.L != (absorbing 5).L) = true ∧
    goesTo (edge false false 0 (compressing .cmpAbs 64)) (fun s => s.H != (compressing .cmpAbs 64).H) = true ∧
    goesTo (edge false true 0x300 (absorbing 5)) (fun s => s.errCause != .none) = true := by decide

/-- StepsCompleteExactlyWhereSpecified: a legal state, and one that only a reset leaves. -/
theorem witness_steps : (absorbing 5).Legal ∧ ¬ (compressing .unused5 0).Legal ∧ ¬ (compressing .cmpAbs 65).Legal ∧
    (compressing .cmpAbs 64).Legal ∧
    goesTo (step { compressing .unused5 0 with host := [.reset] }) (fun _ => true) = true ∧
    goesTo (step (compressing .unused5 0)) (fun _ => true) = false := by decide

/-- FinalPadsAndStarts, at the ends and at the fit boundary. -/
theorem witness_final : ∀ n ∈ [(0 : BitVec 6), 55, 56, 63],
    (absorbing n).Legal ∧ (absorbing n).phase = .accept ∧ (absorbing n).n = n := by decide

/-- PaddedMessageFillsBlocks: its bound on `z` is met where there are zero bytes to spare. -/
theorem witness_padding : 54 < padZeros 0 ∧ padZeros 55 = 0 ∧ 62 < padZeros 56 := by decide

theorem holding_absorbed (msg : List Byte) (h : msg.length < 64) : (holding msg).Absorbed msg where
  accept := rfl
  counter := rfl
  digest := by rw [Nat.div_eq_of_lt h]; rfl
  count := by
    show (BitVec.ofNat 6 msg.length).toNat = _
    rw [BitVec.toNat_ofNat]
  length := rfl
  buffer i _ := by
    rw [Nat.div_eq_of_lt h]
    exact bufRead_blockAt msg 0 i

/-- AbsorbExtendsTheMessage: 62 bytes absorbed, and 63, one for each of its clauses. -/
theorem witness_absorb_extends : ∀ k ∈ [0, 62, 63], (holding (List.replicate k 0x61)).Absorbed (List.replicate k 0x61) ∧
    (holding (List.replicate k 0x61)).n.toNat = k := by
  intro k hk
  refine ⟨holding_absorbed _ ?_, ?_⟩
  · rw [List.length_replicate]; revert k; decide
  · show (BitVec.ofNat 6 (List.replicate k (0x61 : Byte)).length).toNat = k
    rw [List.length_replicate]; revert k; decide

/-- FinalYieldsTheDigest: 55 bytes and 56, with as many edges as it asks for. -/
theorem witness_final_yields : ∀ k ∈ [55, 56], (holding (List.replicate k 0x61)).Absorbed (List.replicate k 0x61) ∧
    NoReset (List.replicate (65 * finalCompressions k) quiet) ∧
    (List.replicate (65 * finalCompressions k) quiet).length = 65 * finalCompressions (List.replicate k (0x61 : Byte)).length := by
  intro k hk
  refine ⟨holding_absorbed _ ?_, noReset_quiet _, ?_⟩
  · rw [List.length_replicate]; revert k; decide
  · rw [List.length_replicate, List.length_replicate]

/-- WholeMessageIsHashed: a host that hashes "abc" on an instance that has finished another hash. -/
theorem witness_whole_message : ∃ (s : State) (msg : List Byte), s.Ready ∧ msg = [0x61, 0x62, 0x63] ∧
    s.host = directiveFor (.init 0) :: updateDirectives msg ++ directiveFor (.final 0) :: .waitDone :: [] ∧
    1 < 1 + edgesOf msg.length :=
  ⟨{ finished with host := hashDirectives [0x61, 0x62, 0x63] |>.take 6 }, _, by decide, rfl, by decide, by decide⟩

/-- ReadShowsSelectedWord, StatusOutputsFollowRegisters: a legal state in every used phase. -/
theorem witness_legal : (absorbing 5).Legal ∧ (compressing .cmpAbs 64).Legal ∧ (compressing .cmpFin1 0).Legal ∧
    (compressing .cmpFin2 0).Legal ∧ finished.Legal := by decide

/-- DigestStaysUntilInitOrReset: an edge in DONE for each of its alternatives. -/
theorem witness_digest_stays : finished.phase = .done ∧ goesTo (edge true false 0 finished) (·.H != abcDigest) = true ∧
    goesTo (edge false true 0x000 finished) (·.H != abcDigest) = true ∧
    goesTo (edge false true 0x161 finished) (·.H == abcDigest) = true := by decide

/-- DigestBytesAreBigEndian, at both ends of its range. -/
theorem witness_digest_bytes : (0 < 8 ∧ digestByte abcDigest 0 = 0xBA) ∧ (7 < 8 ∧ digestByte abcDigest 31 = 0xAD) := by decide

/-- The invariant holds with a message open, in every compressing phase, and in DONE. -/
theorem witness_inv : ∀ s ∈ [absorbing 5, compressing .cmpFin1 63, compressing .cmpFin2 64, { compressing .cmpAbs 64 with L := 512 },
    finished], s.Inv := by
  intro s hs
  have h : s.phase.used = true ∧ (s.phase = .accept ∨ s.phase = .done → s.t = 0) ∧
      (s.phase.compressing = true → s.t.toNat ≤ 64) ∧ (s.phase ≠ .accept → s.n = 0) ∧ s.L.toNat % 8 = 0 ∧
      (s.phase = .accept ∨ s.phase = .cmpAbs → s.L.toNat % 512 = 8 * s.n.toNat) := by
    revert s; decide
  exact ⟨h.1, h.2.1, h.2.2.1, h.2.2.2.1, h.2.2.2.2.1, h.2.2.2.2.2⟩

/-- InvariantKeptByEveryStep: each of those states has a next one. -/
theorem witness_inv_steps : ∀ s ∈ [absorbing 5, compressing .cmpFin1 63, { compressing .cmpAbs 64 with L := 512 }, finished],
    goesTo (step s) (fun _ => true) = true := by decide

/-- StepRunsTheDecodedInstruction, one state for each clause. -/
theorem witness_step_runs :
    (({ absorbing 63 with host := [.issue 0x161] } : State).cmdReady = true) ∧
    (({ compressing .cmpAbs 64 with host := [.issue 0x161] } : State).cmdReady = false) ∧
    (({ finished with host := [.read 7] } : State).host = .read 7 :: []) ∧ State.reset.cmdReady = true := by decide

/-- StepRunsTheHostDirectives, one state for each clause, the waits in both their cases. -/
theorem witness_directives : ∀ h ∈ [[Directive.reset], [.drive false true 0x161], [.idle 1], [.idle 0], [.waitReady],
      [.waitDone], []],
    ({ absorbing 5 with host := h } : State).Legal ∧ ({ compressing .cmpFin2 64 with host := h } : State).Legal ∧
      ({ finished with host := h } : State).Legal := by decide

/-- HeldCommandIsAcceptedInTime: a host that holds FINAL through the longest wait there is. -/
theorem witness_held : ({ compressing .cmpFin1 0 with host := [.issue 0x200] } : State).Inv ∧
    ({ compressing .cmpFin1 0 with host := [.issue 0x200] } : State).host = .issue 0x200 :: [] :=
  ⟨⟨by decide, by decide, by decide, by decide, by decide, by decide⟩, rfl⟩

/-- AssemblerWritesTheWords, at the ends of its ranges. -/
theorem witness_assembler : (255 < 256 ∧ 256 ≤ 256) ∧ (7 < 8 ∧ 8 ≤ 8) ∧ (∀ b ∈ [0, 255], b < 256) ∧
    (∃ b ∈ [0, 256], 256 ≤ b) ∧
    assembleLine (.update [0, 255]) = some [.issue 0x100, .issue 0x1FF] := by decide

/-- InstancesAreIndependent: the second of two instances makes a step. -/
theorem witness_instances : ∃ sys' : System, stepAt [absorbing 5, compressing .cmpAbs 0] 1 = some (.next sys') ∧
    sys'[0]? = some (absorbing 5) := ⟨[absorbing 5, roundEdge (compressing .cmpAbs 0)], rfl, rfl⟩

end Sys2Proof.Tests
end

/-! SUPPORT. Proofs of the state family (10_state.md): the status outputs (R34), the phase table (R31), the invariants (R36)
and several instances (R37). -/

namespace Sys2Proof.Machine

/-! ### What ABSORB, FINAL and the feed-forward edge do, one equation a case -/

theorem absorbEffect_done (db : Byte) {s : State} (hp : s.phase = .done) :
    absorbEffect db s = raiseError .absorbAfterFinal s := if_pos hp

theorem absorbEffect_room (db : Byte) {s : State} (hp : s.phase = .accept) (hn : s.n ≠ 63) :
    absorbEffect db s = { s with B := bufAppend s.B s.n db, L := s.L + 8, n := s.n + 1 } := by
  rw [absorbEffect, if_neg (by simp [hp])]
  exact if_neg hn

theorem absorbEffect_full (db : Byte) {s : State} (hp : s.phase = .accept) (hn : s.n = 63) :
    absorbEffect db s = startCompress (bufAppend s.B s.n db)
      { s with B := bufAppend s.B s.n db, L := s.L + 8, n := 0, phase := .cmpAbs } := by
  simp [absorbEffect, hp, hn]

theorem finalEffect_done {s : State} (hp : s.phase = .done) : finalEffect s = raiseError .finalAfterFinal s := if_pos hp

theorem finalEffect_accept {s : State} (hp : s.phase = .accept) :
    finalEffect s = startCompress (wordsOf (padBytes s.B s.n s.L))
      { s with n := 0, phase := if s.n.toNat < Config.padLimit then .cmpFin2 else .cmpFin1 } := by
  simp [finalEffect, hp]

theorem toNat_lt_63_iff (n : BitVec 6) : n.toNat < 63 ↔ n ≠ 63 := by bv_omega

/-- The three transitions of R31 that end a compression: ACCEPT, the second final compression, DONE (R167). -/
theorem feedForwardEdge_phase_cases {s : State} (hc : s.phase.compressing = true) :
    (s.phase = .cmpAbs ∧ (feedForwardEdge s).phase = .accept) ∨
      (s.phase = .cmpFin1 ∧ (feedForwardEdge s).phase = .cmpFin2) ∨
      (s.phase = .cmpFin2 ∧ (feedForwardEdge s).phase = .done) := by
  obtain ⟨_, _, hAbs, hFin2, hFin1⟩ := feedForwardEdge_writes s hc
  cases hp : s.phase <;> simp_all [Phase.compressing]

/-! ### The phase after an edge (R31) -/

theorem effectOf_phase_accept (i : Instr) {s : State} (hp : s.phase = .accept) :
    (effectOf i s).phase = phaseAfterCommand i s.n := by
  cases i with
  | init data => rfl
  | absorb db =>
    by_cases hn : s.n = 63
    · simp [effectOf, phaseAfterCommand, absorbEffect_full db hp hn, hn]
    · simp [effectOf, phaseAfterCommand, absorbEffect_room db hp hn, (toNat_lt_63_iff s.n).2 hn, hp]
  | final data =>
    have hfit : s.n.toNat < 56 ↔ s.n.toNat ≤ 55 := by omega
    simp [effectOf, phaseAfterCommand, finalEffect_accept hp, hfit]
  | rsvd data => exact hp
  | read k => exact hp

theorem effectOf_init_phase (data : Byte) (s : State) : (effectOf (.init data) s).phase = .accept := rfl

/-- In DONE every command but INIT stays in DONE (R31). -/
theorem effectOf_phase_done {i : Instr} {s : State} (hp : s.phase = .done) (hi : ∀ data, i ≠ .init data) :
    (effectOf i s).phase = .done := by
  cases i with
  | init data => exact absurd rfl (hi data)
  | absorb db => simp [effectOf, absorbEffect_done db hp, hp]
  | final data => simp [effectOf, finalEffect_done hp, hp]
  | rsvd data => exact hp
  | read k => exact hp

theorem phaseAfterEdge_idle (cmd : BitVec 10) {s : State} (hr : s.cmdReady = true) :
    phaseAfterEdge false false cmd s = s.phase := by
  rcases phase_of_cmdReady hr with hp | hp <;> simp [phaseAfterEdge, hp]

theorem phaseAfterEdge_command (cmd : BitVec 10) {s : State} (hr : s.cmdReady = true) :
    phaseAfterEdge false true cmd s = (effectOf (decodeCmd cmd) s).phase := by
  rcases phase_of_cmdReady hr with hp | hp
  · simp [phaseAfterEdge, hp, decode, effectOf_phase_accept _ hp]
  · cases hd : decodeCmd cmd with
    | init data => simp [phaseAfterEdge, hp, decode, hd, effectOf_init_phase]
    | absorb | final | rsvd | read =>
      rw [effectOf_phase_done hp (by simp)]
      simp [phaseAfterEdge, hp, decode, hd]

theorem phaseAfterEdge_round (valid : Bool) (cmd : BitVec 10) {s : State} (hc : s.phase.compressing = true)
    (ht : s.t.toNat < 64) : phaseAfterEdge false valid cmd s = s.phase := by
  cases hp : s.phase <;> simp_all [phaseAfterEdge, Phase.compressing]

theorem phaseAfterEdge_feedForward (valid : Bool) (cmd : BitVec 10) {s : State} (hc : s.phase.compressing = true)
    (ht : s.t.toNat = 64) : phaseAfterEdge false valid cmd s = (feedForwardEdge s).phase := by
  rcases feedForwardEdge_phase_cases hc with ⟨hp, hp'⟩ | ⟨hp, hp'⟩ | ⟨hp, hp'⟩ <;> simp [phaseAfterEdge, hp, hp', ht]

/-- Settles O25: each of the five kinds of edge is a row, or rows, of the table. -/
theorem phaseFollowsTransitionTable : Obligations.PhaseFollowsTransitionTable := by
  intro rst valid cmd s s' h
  rcases edge_cases h with ⟨rfl, rfl⟩ | ⟨rfl, _, hr, rfl, rfl⟩ | ⟨rfl, _, hr, rfl, rfl⟩ | ⟨rfl, _, hc, ht, rfl⟩ |
    ⟨rfl, _, hc, ht, rfl⟩
  · rfl
  · exact (phaseAfterEdge_idle cmd hr).symm
  · exact (phaseAfterEdge_command cmd hr).symm
  · exact (phaseAfterEdge_round valid cmd hc ht).symm
  · exact (phaseAfterEdge_feedForward valid cmd hc ht).symm

/-! ### The invariants of R36, edge by edge -/

/-- The invariants speak of `phase`, `t`, `n` and `L` only. -/
theorem State.Inv.of_same_counters {s s' : State} (hi : s.Inv) (hp : s'.phase = s.phase) (ht : s'.t = s.t)
    (hn : s'.n = s.n) (hL : s'.L = s.L) : s'.Inv := by
  obtain ⟨hu, hidle, hbusy, hzero, hbytes, hcount⟩ := hi
  constructor <;> simpa only [hp, ht, hn, hL]

theorem inv_of_empty {s : State} (hp : s.phase = .accept) (ht : s.t = 0) (hn : s.n = 0) (hL : s.L = 0) : s.Inv := by
  constructor <;> simp [hp, ht, hn, hL, Phase.used]

theorem raiseError_keeps_inv (c : ErrCause) {s : State} (hi : s.Inv) : (raiseError c s).Inv :=
  hi.of_same_counters rfl rfl rfl rfl

/-- The wrap of `L` at 2^64 is no matter modulo the block length (R24). -/
theorem length_add_byte_mod_block (L : BitVec 64) : (L + 8).toNat % 512 = (L.toNat + 8) % 512 := by bv_omega

theorem absorbEffect_room_keeps_inv (db : Byte) {s : State} (hi : s.Inv) (hp : s.phase = .accept) (hn : s.n ≠ 63) :
    (absorbEffect db s).Inv := by
  have hbytes := hi.lengthBytes
  have hcount := hi.lengthCount (.inl hp)
  have hL := length_add_byte_mod_block s.L
  have hn1 : (s.n + 1).toNat = s.n.toNat + 1 := by bv_omega
  rw [absorbEffect_room db hp hn]
  exact {
    phaseUsed := hi.phaseUsed
    idleCounter := hi.idleCounter
    busyCounter := hi.busyCounter
    countZero := fun h => absurd hp h
    lengthBytes := by
      show (s.L + 8).toNat % 8 = 0
      omega
    lengthCount := fun _ => by
      show (s.L + 8).toNat % 512 = 8 * (s.n + 1).toNat
      omega }

theorem absorbEffect_full_keeps_inv (db : Byte) {s : State} (hi : s.Inv) (hp : s.phase = .accept) (hn : s.n = 63) :
    (absorbEffect db s).Inv := by
  have hcount := hi.lengthCount (.inl hp)
  rw [hn, show (63 : BitVec 6).toNat = 63 from rfl] at hcount
  have hblock : (s.L + 8).toNat % 512 = 0 := by
    rw [length_add_byte_mod_block]
    omega
  rw [absorbEffect_full db hp hn]
  exact {
    phaseUsed := rfl
    idleCounter := fun _ => rfl
    busyCounter := fun _ => Nat.zero_le 64
    countZero := fun _ => rfl
    lengthBytes := by
      show (s.L + 8).toNat % 8 = 0
      omega
    lengthCount := fun _ => hblock }

/-- ABSORB moves `n` and `L` on together, and `n` returns to 0 where `L` reaches a multiple of 512 (R36, derivation of its
seventh). -/
theorem absorbEffect_keeps_inv (db : Byte) {s : State} (hi : s.Inv) (hr : s.cmdReady = true) :
    (absorbEffect db s).Inv := by
  rcases phase_of_cmdReady hr with hp | hp
  · by_cases hn : s.n = 63
    · exact absorbEffect_full_keeps_inv db hi hp hn
    · exact absorbEffect_room_keeps_inv db hi hp hn
  · rw [absorbEffect_done db hp]
    exact raiseError_keeps_inv _ hi

theorem finalEffect_keeps_inv {s : State} (hi : s.Inv) (hr : s.cmdReady = true) : (finalEffect s).Inv := by
  rcases phase_of_cmdReady hr with hp | hp
  · rw [finalEffect_accept hp]
    exact {
      phaseUsed := by rw [startCompress_phase]; split <;> rfl
      idleCounter := fun _ => rfl
      busyCounter := fun _ => Nat.zero_le 64
      countZero := fun _ => rfl
      lengthBytes := hi.lengthBytes
      lengthCount := fun h => by
        rw [startCompress_phase] at h
        split at h <;> simp at h }
  · rw [finalEffect_done hp]
    exact raiseError_keeps_inv _ hi

theorem effectOf_keeps_inv (i : Instr) {s : State} (hi : s.Inv) (hr : s.cmdReady = true) : (effectOf i s).Inv := by
  cases i with
  | init data => exact inv_of_empty rfl rfl rfl rfl
  | absorb db => exact absorbEffect_keeps_inv db hi hr
  | final data => exact finalEffect_keeps_inv hi hr
  | rsvd data => exact raiseError_keeps_inv _ hi
  | read k => exact hi

theorem roundEdge_keeps_inv {s : State} (hi : s.Inv) (hc : s.phase.compressing = true) (ht : s.t.toNat < 64) :
    (roundEdge s).Inv where
  phaseUsed := hi.phaseUsed
  idleCounter hidle := by
    rcases hidle with hp | hp <;> simp_all [Phase.compressing]
  busyCounter _ := by
    rw [roundEdge_t]
    bv_omega
  countZero := hi.countZero
  lengthBytes := hi.lengthBytes
  lengthCount := hi.lengthCount

/-- The seventh invariant passes from CMP_ABS to ACCEPT here, which is why it is stated for both (log entry 6). -/
theorem feedForwardEdge_keeps_inv {s : State} (hi : s.Inv) (hc : s.phase.compressing = true) :
    (feedForwardEdge s).Inv := by
  obtain ⟨_, hn, hL, _⟩ := feedForwardEdge_frame s
  obtain ⟨_, ht, _⟩ := feedForwardEdge_writes s hc
  have hphase := feedForwardEdge_phase_cases hc
  have hzero : s.n = 0 := hi.countZero fun hp => by simp [hp, Phase.compressing] at hc
  exact {
    phaseUsed := by rcases hphase with ⟨_, hp⟩ | ⟨_, hp⟩ | ⟨_, hp⟩ <;> rw [hp] <;> rfl
    idleCounter := fun _ => ht
    busyCounter := fun _ => by simp [ht]
    countZero := fun _ => hn.trans hzero
    lengthBytes := by rw [hL]; exact hi.lengthBytes
    lengthCount := fun h => by
      have habs : s.phase = .cmpAbs := by
        rcases hphase with ⟨hp, _⟩ | ⟨_, hp⟩ | ⟨_, hp⟩
        · exact hp
        all_goals simp [hp] at h
      rw [hL, hn]
      exact hi.lengthCount (.inr habs) }

theorem edge_keeps_inv {rst valid : Bool} {cmd : BitVec 10} {s s' : State} (hi : s.Inv)
    (h : edge rst valid cmd s = .next s') : s'.Inv := by
  rcases edge_cases h with ⟨_, rfl⟩ | ⟨_, _, _, _, rfl⟩ | ⟨_, _, hr, _, rfl⟩ | ⟨_, _, hc, ht, rfl⟩ | ⟨_, _, hc, _, rfl⟩
  · exact inv_of_empty rfl rfl rfl rfl
  · exact hi
  · exact effectOf_keeps_inv _ hi hr
  · exact roundEdge_keeps_inv hi hc ht
  · exact feedForwardEdge_keeps_inv hi hc

/-! ### A step is an edge or an observation -/

theorem observeOnly_next (s s' : State) : observeOnly s = .next s' ↔ s.Legal ∧ s' = s := by
  rw [← refusal?_eq_none]
  unfold observeOnly
  cases s.refusal? <;> simp [eq_comm]

theorem execRead_next (i : BitVec 3) (s s' : State) :
    execRead i s = .next s' ↔ s.Legal ∧ s' = { s with dsel := i } := by
  rw [← refusal?_eq_none]
  unfold execRead
  cases s.refusal? <;> simp [eq_comm]

/-- Whatever the host does, a step is one edge, or it only looks at a legal state's outputs and changes no register (R88). -/
theorem step_edge_or_observation {s s' : State} (h : step s = .next s') :
    (∃ rst valid cmd rest, edge rst valid cmd { s with host := rest } = .next s') ∨
      (s.Legal ∧ ∃ i rest, s' = { s with dsel := i, host := rest }) := by
  have observed {rest : List Directive} (h : observeOnly { s with host := rest } = .next s') :
      s.Legal ∧ ∃ i rest, s' = { s with dsel := i, host := rest } := by
    obtain ⟨hl, rfl⟩ := (observeOnly_next _ _).1 h
    exact ⟨hl, _, _, rfl⟩
  unfold step hostStep at h
  split at h
  case h_1 => exact .inl ⟨_, _, _, s.host, h⟩
  case h_2 rst valid cmd rest _ => exact .inl ⟨_, _, _, _, h⟩
  case h_3 cmd rest _ =>
    split at h
    · exact .inl ⟨_, _, _, _, h⟩
    · exact .inl ⟨_, _, _, s.host, h⟩
  case h_4 rest _ => exact .inl ⟨_, _, _, _, h⟩
  case h_5 rest _ => exact .inr (observed h)
  case h_6 k rest _ => exact .inl ⟨_, _, _, _, h⟩
  case h_7 rest _ =>
    split at h
    · exact .inr (observed h)
    · exact .inl ⟨_, _, _, s.host, h⟩
  case h_8 rest _ =>
    split at h
    · exact .inr (observed h)
    · exact .inl ⟨_, _, _, s.host, h⟩
  case h_9 i rest _ =>
    obtain ⟨hl, rfl⟩ := (execRead_next i _ _).1 h
    exact .inr ⟨hl, _, _, rfl⟩

/-- Settles O44: an edge keeps the invariants from any state, and the rest of a step touches nothing they speak of. -/
theorem invariantKeptByEveryStep : Obligations.InvariantKeptByEveryStep := by
  intro s s' hi h
  rcases step_edge_or_observation h with ⟨rst, valid, cmd, rest, he⟩ | ⟨_, i, rest, rfl⟩
  · have hi' : ({ s with host := rest } : State).Inv := hi.of_same_counters rfl rfl rfl rfl
    exact edge_keeps_inv hi' he
  · exact hi.of_same_counters rfl rfl rfl rfl

/-- Settles O43: the state after reset is empty in ACCEPT. -/
theorem invariantHoldsAtReset : Obligations.InvariantHoldsAtReset :=
  inv_of_empty rfl rfl rfl rfl

/-! ### The status outputs (R34) -/

theorem outputsAt_legal {s : State} (h : s.Legal) (i : BitVec 3) :
    s.outputsAt i = some ⟨s.cmdReady, s.done, s.err, s.errCause.code, s.dout i⟩ := by
  unfold State.outputsAt
  rw [(refusal?_eq_none s).2 h]

theorem cmdReady_iff (s : State) : s.cmdReady = true ↔ s.phase = .accept ∨ s.phase = .done := by
  simp [State.cmdReady]

theorem done_iff (s : State) : s.done = true ↔ s.phase = .done := by
  simp [State.done]

theorem err_iff (s : State) : s.err = true ↔ s.errCause.code ≠ 0b00 := by
  simp [State.err]

/-- Settles O38: a legal state has its outputs, and each is the function of the registers that R34 gives. -/
theorem statusOutputsFollowRegisters : Obligations.StatusOutputsFollowRegisters := by
  intro s i hl
  exact ⟨_, outputsAt_legal hl i, cmdReady_iff s, done_iff s, err_iff s, rfl, rfl⟩

/-! ### Several instances (R37) -/

/-- A step of a system is a step of one of its states, put back in its place. -/
theorem stepAt_next {sys sys' : System} {k : Nat} (h : stepAt sys k = some (.next sys')) :
    ∃ s s', sys[k]? = some s ∧ step s = .next s' ∧ sys' = sys.set k s' := by
  unfold stepAt at h
  split at h
  · cases h
  case h_2 s hk =>
    split at h
    case h_1 s' hs => cases h; exact ⟨s, s', hk, hs, rfl⟩
    all_goals cases h

/-- Settles O49: only place `k` of the list is written. -/
theorem instancesAreIndependent : Obligations.InstancesAreIndependent := by
  intro sys sys' k h
  obtain ⟨s, s', hk, hs, rfl⟩ := stepAt_next h
  obtain ⟨hlt, _⟩ := List.getElem?_eq_some_iff.1 hk
  exact ⟨List.length_set, fun j hj => List.getElem?_set_ne hj.symm, s, s', hk, hs, List.getElem?_set_self hlt⟩

end Sys2Proof.Machine

/-! SUPPORT. Proofs of the memory family (20_memory.md): the block buffer's bytes and words (R50, R53), the digest's bytes and
text (R55, R244), and INIT given again (R64). -/

namespace Sys2Proof.Machine

/-! ### The block buffer (R50, R53) -/

/-- Settles O9: both halves are the byte-store laws of `Words`. -/
theorem bufferBytesAndWordsAgree : Obligations.BufferBytesAndWordsAgree :=
  ⟨wordsOf_bytes, bufRead_wordsOf⟩

/-! ### The digest's bytes and its text (R55, R244) -/

theorem digestByte_eq_laneOf (H : Vector Word 8) {j k : Nat} (hj : j < 8) (hk : k < 4) (h : 4 * j + k < 32) :
    digestByte H ⟨4 * j + k, h⟩ = laneOf H[j] k := by
  have hword : (4 * j + k) / 4 = j := by omega
  have hlane : (4 * j + k) % 4 = k := by omega
  simp only [digestByte, hword, hlane]

theorem digestBytes_append (H : Vector Word 8) {j : Nat} (h : j < 8) :
    digestByte H ⟨4 * j, by omega⟩ ++ digestByte H ⟨4 * j + 1, by omega⟩ ++ digestByte H ⟨4 * j + 2, by omega⟩ ++
      digestByte H ⟨4 * j + 3, by omega⟩ = H[j] := by
  have h0 : digestByte H ⟨4 * j, by omega⟩ = laneOf H[j] 0 := digestByte_eq_laneOf H h (k := 0) (by omega) (by omega)
  rw [h0, digestByte_eq_laneOf H h (by omega), digestByte_eq_laneOf H h (by omega),
    digestByte_eq_laneOf H h (by omega)]
  exact packWord_lanes H[j]

/-- In a list of pairs laid end to end, pair `i` stands at places `2 * i` and `2 * i + 1`. -/
theorem getElem?_flatMap_pair {α β : Type} (f g : α → β) (l : List α) (i : Nat) :
    (l.flatMap fun a => [f a, g a])[2 * i]? = l[i]?.map f ∧
      (l.flatMap fun a => [f a, g a])[2 * i + 1]? = l[i]?.map g := by
  induction l generalizing i with
  | nil => exact ⟨rfl, rfl⟩
  | cons a l ih =>
    cases i with
    | zero => exact ⟨rfl, rfl⟩
    | succ i => exact ih i

theorem length_renderDigest (H : Vector Word 8) : (renderDigest H).length = 64 := by
  simp [renderDigest, List.length_flatMap]

theorem renderDigest_byte (H : Vector Word 8) (k : Fin 32) :
    (renderDigest H)[2 * k.val]? = some (hexDigit ((digestByte H k).extractLsb' 4 4)) ∧
      (renderDigest H)[2 * k.val + 1]? = some (hexDigit ((digestByte H k).extractLsb' 0 4)) := by
  have hk : (List.finRange 32)[k.val]? = some k := by simp
  obtain ⟨hhigh, hlow⟩ := getElem?_flatMap_pair (fun k => hexDigit ((digestByte H k).extractLsb' 4 4))
    (fun k => hexDigit ((digestByte H k).extractLsb' 0 4)) (List.finRange 32) k.val
  rw [hk] at hhigh hlow
  exact ⟨hhigh, hlow⟩

/-- Settles O37: the digits by evaluation, each word from its four lanes, the text pair by pair. -/
theorem digestBytesAreBigEndian : Obligations.DigestBytesAreBigEndian :=
  ⟨by decide, fun H _ h => ⟨digestBytes_append H h, length_renderDigest H, renderDigest_byte H⟩⟩

/-! ### INIT again (R64, R192) -/

theorem exec_init_ready (data : Byte) {s : State} (h : s.Ready) : exec (.init data) s = .next (initEffect s) :=
  presentAtEdge_ready initEffect h

theorem initEffect_ready (s : State) : (initEffect s).Ready := ready_of_accept rfl rfl

theorem initEffect_initEffect (s : State) : initEffect (initEffect s) = initEffect s := rfl

/-- Settles O21: INIT leaves a state that accepts a command, and writes constants only. -/
theorem initIsIdempotent : Obligations.InitIsIdempotent := by
  intro data data' s s' hr h
  obtain rfl : initEffect s = s' := by simpa only [exec_init_ready data hr, Host.Outcome.next.injEq] using h
  rw [exec_init_ready data' (initEffect_ready s), initEffect_initEffect]

end Sys2Proof.Machine

/-! SUPPORT. Proofs of the encoding family (30_encoding.md): decoding and encoding agree (R80 to R85), a step runs what the host
asks for (R87, R88), the assembler's words (R86 to R89), and a whole message hashed (R89, R299). -/

namespace Sys2Proof

/-! ### Decode and encode (R80 to R85) -/

/-- Decoding looks at the fields of a command word and at nothing else (R83). -/
theorem decodeCmd_commandWord (op : BitVec 2) (data : Byte) :
    decodeCmd (commandWord op data) =
      if op = 0b00#2 then .init data else if op = 0b01#2 then .absorb data else if op = 0b10#2 then .final data
      else .rsvd data := by
  unfold decodeCmd
  rw [opField_commandWord, dataField_commandWord]

theorem decode_encode (i : Instr) : decode (encode i) = i := by
  cases i with
  | init data => exact decodeCmd_commandWord 0b00 data
  | absorb db => exact decodeCmd_commandWord 0b01 db
  | final data => exact decodeCmd_commandWord 0b10 data
  | rsvd data => exact decodeCmd_commandWord 0b11 data
  | read i => rfl

/-- The four operation codes are all there are (R81). -/
theorem opCode_cases (op : BitVec 2) : op = 0b00 ∨ op = 0b01 ∨ op = 0b10 ∨ op = 0b11 := by
  bv_omega

theorem encode_decodeCmd (w : BitVec 10) : encode (decodeCmd w) = .cmd w := by
  obtain ⟨op, data, rfl⟩ : ∃ op data, w = commandWord op data := ⟨_, _, (commandWord_fields w).symm⟩
  rw [decodeCmd_commandWord]
  rcases opCode_cases op with rfl | rfl | rfl | rfl <;> rfl

theorem encode_decode (p : PortWord) : encode (decode p) = p := by
  cases p with
  | cmd w => exact encode_decodeCmd w
  | dsel i => rfl

theorem decodeTableWord_encode (i : Instr) :
    decodeTableWord (tableBits (encode i)) (tableNumber (encode i)) = some i := by
  simp only [decodeTableWord, decodeRaw, portWordOf_encode, decode_encode]

/-- Settles O3: one law for each direction, and one for the opcode table's numbering. -/
theorem decodeEncodeAgree : Obligations.DecodeEncodeAgree :=
  ⟨decode_encode, encode_decode, decodeTableWord_encode⟩

/-- Settles O2: the four operation codes on any data, and every word from its own two fields. -/
theorem commandWordDecodesByOpField : Obligations.CommandWordDecodesByOpField :=
  ⟨fun data => ⟨decodeCmd_commandWord 0b00 data, decodeCmd_commandWord 0b01 data, decodeCmd_commandWord 0b10 data,
      decodeCmd_commandWord 0b11 data⟩,
    fun w => ⟨opField w, dataField w, (commandWord_fields w).symm⟩⟩

/-- Settles O1, by evaluating the decoder on the eight words and numbers. -/
theorem sampleWordsDecode : Obligations.SampleWordsDecode := by
  unfold Obligations.SampleWordsDecode
  decide

end Sys2Proof

namespace Sys2Proof.Machine

/-- Settles O4: no arm of `exec` for these three reads its data (R82). -/
theorem dataFieldIgnored : Obligations.DataFieldIgnored := fun _ _ _ => ⟨rfl, rfl, rfl⟩

/-! ### A step runs what the host asks for (R87, R88) -/

theorem step_issue_held {s : State} (cmd : BitVec 10) (rest : List Directive) (hh : s.host = .issue cmd :: rest)
    (hr : s.cmdReady = false) : step s = exec (decodeCmd cmd) s := by
  unfold step hostStep
  rw [hh]
  simp only [hr]
  rfl

theorem step_read {s : State} (i : BitVec 3) (rest : List Directive) (hh : s.host = .read i :: rest) :
    step s = exec (.read i) { s with host := rest } := by
  unfold step hostStep
  rw [hh]
  rfl

theorem withFetchWord_encode (s : State) (i : Instr) :
    s.withFetchWord (tableBits (encode i)) (tableNumber (encode i)) = { s with host := directiveFor i :: s.host } := by
  simp only [State.withFetchWord, portWordOf_encode, directiveFor]

/-- Where a command is accepted, the instruction that the host asks for is run, past the directive that asked. -/
theorem step_directiveFor {s : State} (i : Instr) (rest : List Directive) (hh : s.host = directiveFor i :: rest)
    (hr : s.cmdReady = true) : step s = exec i { s with host := rest } := by
  have hi : decode (encode i) = i := decode_encode i
  unfold directiveFor at hh
  cases hp : encode i with
  | cmd w =>
    rw [hp] at hh hi
    rw [step_issue_ready w rest hh hr]
    exact congrArg (exec · _) hi
  | dsel k =>
    rw [hp] at hh hi
    rw [step_read k rest hh]
    exact congrArg (exec · _) hi

/-- Settles O45: the command accepted, the command held, READ, and the word put in front of the host's list. -/
theorem stepRunsTheDecodedInstruction : Obligations.StepRunsTheDecodedInstruction :=
  ⟨fun _ cmd rest hh hr => step_issue_ready cmd rest hh hr, fun _ cmd rest hh hr => step_issue_held cmd rest hh hr,
    fun _ i rest hh => step_read i rest hh, fun s i hr => by
      rw [withFetchWord_encode]
      exact step_directiveFor i s.host rfl hr⟩

theorem observeOnly_legal {s : State} (h : s.Legal) : observeOnly s = .next s := (observeOnly_next s s).2 ⟨h, rfl⟩

/-- Settles O46: each clause is its row of `hostStep`, and a legal state has outputs to look at. -/
theorem stepRunsTheHostDirectives : Obligations.StepRunsTheHostDirectives := by
  intro s rest hl
  have hobs : observeOnly { s with host := rest } = .next { s with host := rest } := observeOnly_legal hl
  refine ⟨fun hh => ?reset, fun rst valid cmd hh => ?drive, fun k hh => ?idle, fun hh => ?idleEnd, fun hh => ?waitReady,
    fun hh => ?waitDone, fun hh => ?empty⟩ <;> simp only [step, hostStep, hh]
  case reset => rfl
  case idleEnd => exact hobs
  case waitReady => rw [hobs]
  case waitDone => rw [hobs]

/-! ### The assembler's words (R85 to R89) -/

/-- `cmd = op : data` as a number: the operation code above the data byte (R80). -/
theorem commandWord_ofNat (op : BitVec 2) {b : Nat} (h : b < 256) :
    commandWord op (BitVec.ofNat 8 b) = BitVec.ofNat 10 (256 * op.toNat + b) := by
  apply BitVec.eq_of_toNat_eq
  have hop := op.isLt
  rw [commandWord, BitVec.toNat_append, BitVec.toNat_ofNat, BitVec.toNat_ofNat, Nat.mod_eq_of_lt h,
    ← Nat.shiftLeft_add_eq_or_of_lt h, Nat.shiftLeft_eq]
  omega

theorem directiveFor_absorb {b : Nat} (h : b < 256) :
    directiveFor (.absorb (BitVec.ofNat 8 b)) = .issue (BitVec.ofNat 10 (0x100 + b)) :=
  congrArg Directive.issue (commandWord_ofNat 0b01 h)

theorem directiveFor_rsvd {b : Nat} (h : b < 256) :
    directiveFor (.rsvd (BitVec.ofNat 8 b)) = .issue (BitVec.ofNat 10 (0x300 + b)) :=
  congrArg Directive.issue (commandWord_ofNat 0b11 h)

theorem updateDirectives_bytesOf {bytes : List Nat} (h : ∀ b ∈ bytes, b < 256) :
    updateDirectives (bytesOf bytes) = bytes.map fun b => .issue (BitVec.ofNat 10 (0x100 + b)) := by
  rw [updateDirectives, bytesOf, List.map_map]
  exact List.map_congr_left fun b hb => directiveFor_absorb (h b hb)

theorem assembleLine_of_illFormed {l : SourceLine} (h : l.wellFormed = false) : assembleLine l = none := by
  simp [assembleLine, h]

theorem assembleLine_byte {b : Nat} (h : b < 256) :
    assembleLine (.absorb b) = some [.issue (BitVec.ofNat 10 (0x100 + b))] ∧
      assembleLine (.rsvd b) = some [.issue (BitVec.ofNat 10 (0x300 + b))] := by
  simp [assembleLine, SourceLine.wellFormed, h, directiveFor_absorb, directiveFor_rsvd]

theorem assembleLine_byte_tooLarge {b : Nat} (h : 256 ≤ b) :
    assembleLine (.absorb b) = none ∧ assembleLine (.rsvd b) = none :=
  ⟨assembleLine_of_illFormed (decide_eq_false (by omega)), assembleLine_of_illFormed (decide_eq_false (by omega))⟩

theorem assembleLine_read {i : Nat} (h : i < 8) : assembleLine (.read i) = some [.read (BitVec.ofNat 3 i)] := by
  simp [assembleLine, SourceLine.wellFormed, h, directiveFor, encode, directiveOf]

theorem assembleLine_read_tooLarge {i : Nat} (h : 8 ≤ i) : assembleLine (.read i) = none :=
  assembleLine_of_illFormed (decide_eq_false (by omega))

theorem assembleLine_bytes {bytes : List Nat} (h : ∀ b ∈ bytes, b < 256) :
    assembleLine (.update bytes) = some (updateDirectives (bytesOf bytes)) ∧
      assembleLine (.hash bytes) = some (hashDirectives (bytesOf bytes)) := by
  have hall : (bytes.all fun b => decide (b < 256)) = true := by simpa using h
  simp only [assembleLine, SourceLine.wellFormed, hall, if_true, and_self]

theorem assembleLine_bytes_tooLarge {bytes : List Nat} (h : ∃ b ∈ bytes, 256 ≤ b) :
    assembleLine (.update bytes) = none ∧ assembleLine (.hash bytes) = none := by
  have hall : (bytes.all fun b => decide (b < 256)) = false := by simpa using h
  exact ⟨assembleLine_of_illFormed hall, assembleLine_of_illFormed hall⟩

/-- Settles O48: the words by `commandWord_ofNat`, UPDATE and HASH byte by byte, the fixed lines by evaluation. -/
theorem assemblerWritesTheWords : Obligations.AssemblerWritesTheWords := by
  refine ⟨fun _ => assembleLine_byte, fun _ => assembleLine_byte_tooLarge, rfl, rfl, fun _ => assembleLine_read,
    fun _ => assembleLine_read_tooLarge, rfl, fun bytes h => ?_, fun _ => assembleLine_bytes_tooLarge⟩
  rw [← updateDirectives_bytesOf h]
  exact assembleLine_bytes h

/-! ### One compression, from its start to its feed-forward edge (R167 to R169) -/

/-- A compression writes `H`, `t`, `phase`, the window and the working registers; never the rest (R165, R167). -/
theorem compressionEdges_frame (s : State) :
    (compressionEdges s).B = s.B ∧ (compressionEdges s).n = s.n ∧ (compressionEdges s).L = s.L ∧
      (compressionEdges s).errCause = s.errCause ∧ (compressionEdges s).dsel = s.dsel ∧
      (compressionEdges s).misuse = s.misuse ∧ (compressionEdges s).host = s.host := by
  obtain ⟨_, hB, hn, hL, _, herr, hdsel, hmisuse, hhost⟩ := roundEdge_iterate_frame s 64
  have h := feedForwardEdge_frame (roundEdge^[64] s)
  rwa [hB, hn, hL, herr, hdsel, hmisuse, hhost] at h

/-- What any number of compressions leaves alone. -/
theorem compressionEdges_iterate_frame (s : State) (k : Nat) :
    (compressionEdges^[k] s).B = s.B ∧ (compressionEdges^[k] s).n = s.n ∧ (compressionEdges^[k] s).L = s.L ∧
      (compressionEdges^[k] s).errCause = s.errCause ∧ (compressionEdges^[k] s).dsel = s.dsel ∧
      (compressionEdges^[k] s).misuse = s.misuse ∧ (compressionEdges^[k] s).host = s.host := by
  induction k with
  | zero => exact ⟨rfl, rfl, rfl, rfl, rfl, rfl, rfl⟩
  | succ k ih =>
    have h := compressionEdges_frame (compressionEdges^[k] s)
    obtain ⟨hB, hn, hL, herr, hdsel, hmisuse, hhost⟩ := ih
    rw [hB, hn, hL, herr, hdsel, hmisuse, hhost] at h
    rwa [Function.iterate_succ_apply']

/-- Where a compression ends, phase by phase; from CMP_FIN1 it ends at the start of the trailer's compression (R167). -/
theorem compressionEdges_writes (s : State) (hc : s.phase.compressing = true) :
    (compressionEdges s).t = 0 ∧
      (s.phase = .cmpAbs → (compressionEdges s).phase = .accept) ∧
      (s.phase = .cmpFin2 → (compressionEdges s).phase = .done) ∧
      (s.phase = .cmpFin1 → (compressionEdges s).phase = .cmpFin2 ∧ (compressionEdges s).Wwin = trailerBlock s.L ∧
        (compressionEdges s).work = loadWorking (compressionEdges s).H) := by
  obtain ⟨_, _, _, hL, hp, _⟩ := roundEdge_iterate_frame s 64
  obtain ⟨hH, ht, habs, hfin2, hfin1⟩ := feedForwardEdge_writes (roundEdge^[64] s) (by rw [hp]; exact hc)
  rw [hp, hL, ← hH] at hfin1
  rw [hp] at habs hfin2
  exact ⟨ht, habs, hfin2, hfin1⟩

/-! ### The blocks of a message while it is absorbed (R140, R143) -/

/-- A block that a message has filled stays as it is when bytes follow (R14). -/
theorem chainingValue_append (msg more : List Byte) {q : Nat} (h : 64 * q ≤ msg.length) :
    chainingValue (msg ++ more) q = chainingValue msg q :=
  chainingValue_congr _ _ q fun i hi => getD_append_left msg more i (by omega)

/-- With one byte more, the buffer holds the open block of the message with that byte (R140). -/
theorem State.Absorbed.bufRead_appended {s : State} {msg : List Byte} (h : s.Absorbed msg) (db : Byte) {i : BitVec 6}
    (hi : i.toNat ≤ s.n.toNat) :
    bufRead (bufAppend s.B s.n db) i = (msg ++ [db]).getD (64 * (msg.length / 64) + i.toNat) 0 := by
  have hcount := h.count
  rw [bufRead_bufAppend]
  by_cases hin : i = s.n
  · have hlast : 64 * (msg.length / 64) + i.toNat = msg.length := by rw [hin]; omega
    rw [if_pos hin, hlast, getD_append_right _ _ _ (le_refl _), Nat.sub_self]
    rfl
  · have hlt : i.toNat < s.n.toNat := lt_of_le_of_ne hi fun e => hin (BitVec.eq_of_toNat_eq e)
    have hgroup : ¬ (laneIx s.n = 0 ∧ slotOf i = slotOf s.n) := by
      rw [laneIx_eq, Fin.ext_iff, slotOf_val, slotOf_val]
      omega
    rw [if_neg hin, if_neg hgroup, h.buffer i hlt, getD_append_left _ _ _ (by omega)]

/-- The byte at index 63 makes the buffer the message's next whole block (R143). -/
theorem State.Absorbed.filled_eq_blockAt {s : State} {msg : List Byte} (h : s.Absorbed msg) (db : Byte)
    (hn : s.n = 63) : bufAppend s.B s.n db = blockAt (msg ++ [db]) (msg.length / 64) := by
  apply buffer_ext
  intro i
  have hi : i.toNat ≤ s.n.toNat := by rw [hn]; bv_omega
  rw [h.bufRead_appended db hi, bufRead_blockAt]

/-- What the host will do is no part of what has been absorbed. -/
theorem State.Absorbed.with_host {s : State} {msg : List Byte} (h : s.Absorbed msg) (ds : List Directive) :
    ({ s with host := ds } : State).Absorbed msg :=
  ⟨h.accept, h.counter, h.digest, h.count, h.length, h.buffer⟩

theorem State.Absorbed.ready {s : State} {msg : List Byte} (h : s.Absorbed msg) : s.Ready :=
  ready_of_accept h.accept h.counter

/-- `L` counts eight bits a byte, modulo 2^64 (R24). -/
theorem length_append_byte (N : Nat) : BitVec.ofNat 64 (8 * N) + 8 = BitVec.ofNat 64 (8 * (N + 1)) := by
  rw [Nat.mul_succ, BitVec.ofNat_add]
  rfl

theorem initEffect_absorbed (s : State) : (initEffect s).Absorbed [] :=
  ⟨rfl, rfl, rfl, rfl, rfl, fun i hi => absurd hi (Nat.not_lt_zero i.toNat)⟩

/-- A byte that leaves the block open (R140). -/
theorem State.Absorbed.absorb_room {s : State} {msg : List Byte} (h : s.Absorbed msg) (db : Byte) (hn : s.n ≠ 63) :
    (absorbEffect db s).Absorbed (msg ++ [db]) := by
  have hcount := h.count
  have hlt := (toNat_lt_63_iff s.n).2 hn
  have hn' : (s.n + 1).toNat = s.n.toNat + 1 := by bv_omega
  have hlen : (msg ++ [db]).length = msg.length + 1 := List.length_append
  have hq : (msg.length + 1) / 64 = msg.length / 64 := by omega
  rw [absorbEffect_room db h.accept hn]
  exact {
    accept := h.accept
    counter := h.counter
    digest := by
      rw [hlen, hq, chainingValue_append _ _ (by omega)]
      exact h.digest
    count := by
      rw [hlen]
      exact hn'.trans (by omega)
    length := by rw [hlen, ← length_append_byte, ← h.length]
    buffer := fun i (hi : i.toNat < (s.n + 1).toNat) => by
      rw [hlen, hq]
      exact h.bufRead_appended db (by omega) }

/-- What the byte that fills the block writes, and what it leaves alone (R143, R164). -/
theorem absorbEffect_full_writes (db : Byte) {s : State} (hp : s.phase = .accept) (hn : s.n = 63) :
    (absorbEffect db s).phase = .cmpAbs ∧ (absorbEffect db s).n = 0 ∧ (absorbEffect db s).t = 0 ∧
      (absorbEffect db s).Wwin = bufAppend s.B s.n db ∧ (absorbEffect db s).work = loadWorking s.H ∧
      (absorbEffect db s).H = s.H ∧ (absorbEffect db s).L = s.L + 8 ∧ (absorbEffect db s).errCause = s.errCause ∧
      (absorbEffect db s).dsel = s.dsel ∧ (absorbEffect db s).misuse = s.misuse ∧
      (absorbEffect db s).host = s.host := by
  rw [absorbEffect_full db hp hn]
  exact ⟨rfl, rfl, rfl, rfl, rfl, rfl, rfl, rfl, rfl, rfl, rfl⟩

/-- A byte that fills the block, after the block's compression (R143, R168). -/
theorem State.Absorbed.absorb_full {s : State} {msg : List Byte} (h : s.Absorbed msg) (db : Byte) (hn : s.n = 63) :
    (compressionEdges (absorbEffect db s)).Absorbed (msg ++ [db]) := by
  have hcount := h.count
  rw [hn, show (63 : BitVec 6).toNat = 63 from rfl] at hcount
  have hlen : (msg ++ [db]).length = msg.length + 1 := List.length_append
  have hq : (msg.length + 1) / 64 = msg.length / 64 + 1 := by omega
  obtain ⟨hp, hn0, ht, hWwin, hwork, hH, hL, _⟩ := absorbEffect_full_writes db h.accept hn
  obtain ⟨_, hn', hL', _⟩ := compressionEdges_frame (absorbEffect db s)
  have hc : (absorbEffect db s).phase.compressing = true := by rw [hp]; rfl
  obtain ⟨ht', habs, _⟩ := compressionEdges_writes (absorbEffect db s) hc
  have hempty := hn'.trans hn0
  exact {
    accept := habs hp
    counter := ht'
    digest := by
      rw [compressionEdges_H _ hc ht (by rw [hwork, hH]), hH, hWwin, h.filled_eq_blockAt db hn, h.digest, hlen, hq,
        chainingValue, chainingValue_append _ _ (by omega)]
    count := by
      rw [hempty, hlen]
      exact (show (msg.length + 1) % 64 = 0 by omega).symm
    length := by rw [hL', hL, hlen, ← length_append_byte, h.length]
    buffer := fun i hi => by
      rw [hempty] at hi
      exact absurd hi (Nat.not_lt_zero i.toNat) }

/-! ### The padded message as the machine's last blocks (R211, R214 to R216) -/

theorem padZeros_of_fits {N : Nat} (h : N % 64 < 56) : padZeros N = 55 - N % 64 := by
  unfold padZeros
  omega

theorem padZeros_of_spills {N : Nat} (h : 56 ≤ N % 64) : padZeros N = 119 - N % 64 := by
  unfold padZeros
  omega

theorem finalCompressions_of_fits {N : Nat} (h : N % 64 < 56) : finalCompressions N = 1 := if_pos h

theorem finalCompressions_of_spills {N : Nat} (h : 56 ≤ N % 64) : finalCompressions N = 2 :=
  if_neg (Nat.not_lt.2 h)

theorem paddedMessage_blocks (msg : List Byte) :
    (paddedMessage msg).length / 64 = msg.length / 64 + finalCompressions msg.length := by
  rw [paddedMessage_length]
  rcases Nat.lt_or_ge (msg.length % 64) 56 with h | h
  · rw [padZeros_of_fits h, finalCompressions_of_fits h]
    omega
  · rw [padZeros_of_spills h, finalCompressions_of_spills h]
    omega

/-- Padding comes after the message's whole blocks (R216). -/
theorem chainingValue_paddedMessage (msg : List Byte) :
    chainingValue (paddedMessage msg) (msg.length / 64) = chainingValue msg (msg.length / 64) :=
  chainingValue_congr _ _ _ fun i hi => by rw [paddedMessage_getD, if_pos (by omega)]

/-- Every byte of the block that FINAL compresses (R211). -/
theorem bufRead_padBytes (B : Vector Word 16) (n : BitVec 6) (L : BitVec 64) (i : BitVec 6) :
    bufRead (wordsOf (padBytes B n L)) i =
      if n.toNat < 56 ∧ 56 ≤ i.toNat then be64Byte L (i.toNat - 56)
      else if i.toNat < n.toNat then bufRead B i
      else if i.toNat = n.toNat then 0x80
      else 0 := by
  rw [bufRead_wordsOf, padBytes, Vector.getElem_ofFn]
  rfl

/-- The block that FINAL compresses is the padded message's block after the whole ones, whether or not the trailer fits
(R211, R216). -/
theorem State.Absorbed.wordsOf_padBytes {s : State} {msg : List Byte} (h : s.Absorbed msg) :
    wordsOf (padBytes s.B s.n s.L) = blockAt (paddedMessage msg) (msg.length / 64) := by
  apply buffer_ext
  intro i
  have hi := i.isLt
  have hcount := h.count
  rw [bufRead_padBytes, bufRead_blockAt, paddedMessage_getD]
  by_cases hmsg : i.toNat < s.n.toNat
  · rw [if_neg (by omega), if_pos hmsg, if_pos (by omega)]
    exact h.buffer i hmsg
  by_cases hend : i.toNat = s.n.toNat
  · rw [if_neg (by omega), if_neg hmsg, if_pos hend, if_neg (by omega), if_pos (by omega)]
  by_cases hfits : s.n.toNat < 56
  · rw [padZeros_of_fits (by omega)]
    by_cases htrailer : 56 ≤ i.toNat
    · rw [if_pos ⟨hfits, htrailer⟩, if_neg (by omega), if_neg (by omega), if_neg (by omega), if_pos (by omega), h.length]
      congr 1
      omega
    · rw [if_neg (by omega), if_neg hmsg, if_neg hend, if_neg (by omega), if_neg (by omega), if_pos (by omega)]
  · rw [padZeros_of_spills (by omega), if_neg (by omega), if_neg hmsg, if_neg hend, if_neg (by omega), if_neg (by omega),
      if_pos (by omega)]

/-- Where the trailer does not fit, the padded message's last block is the trailer block (R212, R214). -/
theorem trailerBlock_eq_blockAt (msg : List Byte) (h : 56 ≤ msg.length % 64) :
    trailerBlock (BitVec.ofNat 64 (8 * msg.length)) = blockAt (paddedMessage msg) (msg.length / 64 + 1) := by
  apply buffer_ext
  intro i
  have hi := i.isLt
  rw [bufRead_trailerBlock, bufRead_blockAt, paddedMessage_getD, padZeros_of_spills h]
  by_cases htrailer : 56 ≤ i.toNat
  · rw [if_pos htrailer, if_neg (by omega), if_neg (by omega), if_neg (by omega), if_pos (by omega)]
    congr 1
    omega
  · rw [if_neg htrailer, if_neg (by omega), if_neg (by omega), if_pos (by omega)]

/-! ### FINAL after a message (R210 to R217) -/

/-- Registers that FINAL in ACCEPT leaves alone, and what it writes beside the padded block (R210). -/
theorem finalEffect_accept_writes {s : State} (hp : s.phase = .accept) :
    (finalEffect s).phase = (if s.n.toNat < 56 then .cmpFin2 else .cmpFin1) ∧ (finalEffect s).n = 0 ∧
      (finalEffect s).t = 0 ∧ (finalEffect s).H = s.H ∧ (finalEffect s).B = s.B ∧ (finalEffect s).L = s.L ∧
      (finalEffect s).errCause = s.errCause ∧ (finalEffect s).dsel = s.dsel ∧ (finalEffect s).misuse = s.misuse ∧
      (finalEffect s).host = s.host := by
  rw [finalEffect_accept hp]
  exact ⟨rfl, rfl, rfl, rfl, rfl, rfl, rfl, rfl, rfl, rfl⟩

/-- The first compression after FINAL takes the chaining value over one more block of the padded message (R210, R215). -/
theorem State.Absorbed.compressionEdges_finalEffect_H {s : State} {msg : List Byte} (h : s.Absorbed msg) :
    (compressionEdges (finalEffect s)).H = chainingValue (paddedMessage msg) (msg.length / 64 + 1) := by
  rw [finalEffect_accept h.accept, compressionEdges_startCompress _ _ (by dsimp only; split <;> rfl), chainingValue,
    chainingValue_paddedMessage, h.wordsOf_padBytes, h.digest]

/-- After the one or two compressions that follow FINAL, the digest of the message stands in `H` (R215 to R217). -/
theorem State.Absorbed.final_digest {s : State} {msg : List Byte} (h : s.Absorbed msg) :
    (compressionEdges^[finalCompressions msg.length] (finalEffect s)).H = digestOf msg ∧
      (compressionEdges^[finalCompressions msg.length] (finalEffect s)).phase = .done ∧
      (compressionEdges^[finalCompressions msg.length] (finalEffect s)).t = 0 := by
  have hcount := h.count
  have hH := h.compressionEdges_finalEffect_H
  obtain ⟨hp, _, _, _, _, hL, _⟩ := finalEffect_accept_writes h.accept
  rw [digestOf, paddedMessage_blocks]
  rcases Nat.lt_or_ge (msg.length % 64) 56 with hfits | hspills
  · rw [if_pos (by omega)] at hp
    obtain ⟨ht, _, hdone, _⟩ := compressionEdges_writes (finalEffect s) (by rw [hp]; rfl)
    rw [finalCompressions_of_fits hfits]
    exact ⟨hH, hdone hp, ht⟩
  · rw [if_neg (by omega)] at hp
    obtain ⟨_, _, _, hfirst⟩ := compressionEdges_writes (finalEffect s) (by rw [hp]; rfl)
    obtain ⟨hp2, _⟩ := hfirst hp
    obtain ⟨ht, _, hdone, _⟩ := compressionEdges_writes (compressionEdges (finalEffect s)) (by rw [hp2]; rfl)
    rw [finalCompressions_of_spills hspills]
    refine ⟨?_, hdone hp2, ht⟩
    show (compressionEdges (compressionEdges (finalEffect s))).H = _
    rw [compressionEdges_second _ hp, hH, hL, h.length, trailerBlock_eq_blockAt msg hspills]
    rfl

/-! ### Runs of steps along which `done` stays 0 (R88, R294) -/

/-- `k` steps lead from `s` to `s'`, and `done` is 0 before each of them. -/
structure UndoneRun (k : Nat) (s s' : State) : Prop where
  run : Host.Core.run core k s = .next s'
  undone : ∀ j < k, ∃ u : State, Host.Core.run core j s = .next u ∧ u.done = false

theorem UndoneRun.refl (s : State) : UndoneRun 0 s s :=
  ⟨rfl, fun j hj => absurd hj (Nat.not_lt_zero j)⟩

theorem UndoneRun.single {s s' : State} (hd : s.done = false) (h : step s = .next s') : UndoneRun 1 s s' where
  run := core_run_succ 0 h
  undone j hj := ⟨s, by rw [Nat.lt_one_iff.1 hj]; rfl, hd⟩

theorem UndoneRun.trans {a b : Nat} {s u s' : State} (h : UndoneRun a s u) (h' : UndoneRun b u s') :
    UndoneRun (a + b) s s' where
  run := (core_run_add a b s u h.run).trans h'.run
  undone j hj := by
    rcases Nat.lt_or_ge j a with hja | hja
    · exact h.undone j hja
    · obtain ⟨v, hv, hd⟩ := h'.undone (j - a) (by omega)
      refine ⟨v, ?_, hd⟩
      rw [← Nat.add_sub_cancel' hja, core_run_add a (j - a) s u h.run]
      exact hv

/-- The host holds a command or waits for `done`, so that it does nothing while a compression runs (R88, R294). -/
def HoldsOrWaits (ds : List Directive) : Prop :=
  (∃ cmd rest, ds = .issue cmd :: rest) ∨ ∃ rest, ds = .waitDone :: rest

theorem done_false_of_accept {s : State} (h : s.phase = .accept) : s.done = false := by
  simp [State.done, h]

theorem done_false_of_compressing {s : State} (h : s.phase.compressing = true) : s.done = false := by
  cases hp : s.phase <;> simp_all [State.done, Phase.compressing]

theorem undoneRun_engineEdge {s : State} (hc : s.phase.compressing = true) (ht : s.t.toNat ≤ 64)
    (hw : HoldsOrWaits s.host) : UndoneRun 1 s (engineEdge s) :=
  .single (done_false_of_compressing hc) (step_busy hc ht hw)

theorem undoneRun_roundEdges {s : State} (hc : s.phase.compressing = true) (ht : s.t = 0) (hw : HoldsOrWaits s.host)
    (k : Nat) (hk : k ≤ 64) : UndoneRun k s (roundEdge^[k] s) := by
  induction k with
  | zero => exact .refl s
  | succ k ih =>
    obtain ⟨_, _, _, _, hp, _, _, _, hhost⟩ := roundEdge_iterate_frame s k
    have htk := roundEdge_iterate_t s k (by rw [ht]; simp; omega)
    rw [ht, show (0 : BitVec 7).toNat = 0 from rfl, Nat.zero_add] at htk
    have hlast := undoneRun_engineEdge (s := roundEdge^[k] s) (by rw [hp]; exact hc) (by omega) (by rw [hhost]; exact hw)
    rw [engineEdge, if_pos (show (roundEdge^[k] s).t.toNat < 64 by omega)] at hlast
    rw [Function.iterate_succ_apply']
    exact (ih (by omega)).trans hlast

/-- A compression takes 65 steps of a host that holds or waits (R169). -/
theorem undoneRun_compression {s : State} (hc : s.phase.compressing = true) (ht : s.t = 0) (hw : HoldsOrWaits s.host) :
    UndoneRun 65 s (compressionEdges s) := by
  obtain ⟨_, _, _, _, hp, _, _, _, hhost⟩ := roundEdge_iterate_frame s 64
  have ht64 := roundEdge_iterate_t s 64 (by rw [ht]; decide)
  rw [ht, show (0 : BitVec 7).toNat = 0 from rfl, Nat.zero_add] at ht64
  have hlast := undoneRun_engineEdge (s := roundEdge^[64] s) (by rw [hp]; exact hc) (by omega) (by rw [hhost]; exact hw)
  rw [engineEdge, if_neg (show ¬ (roundEdge^[64] s).t.toNat < 64 by omega)] at hlast
  exact (undoneRun_roundEdges hc ht hw 64 (le_refl _)).trans hlast

/-! ### The whole lifecycle (R89, R241, R299) -/

/-- A command issued in a ready state takes effect, past the directive that issued it (R190). -/
theorem step_command {s : State} {i : Instr} (hi : ∀ k, i ≠ .read k) {rest : List Directive}
    (hh : s.host = directiveFor i :: rest) (hr : s.Ready) : step s = .next (effectOf i { s with host := rest }) := by
  rw [step_directiveFor i rest hh hr.2]
  cases i with
  | init data => exact presentAtEdge_ready initEffect hr
  | absorb db => exact presentAtEdge_ready (absorbEffect db) hr
  | final data => exact presentAtEdge_ready finalEffect hr
  | rsvd data => exact presentAtEdge_ready rsvdEffect hr
  | read k => exact absurd rfl (hi k)

theorem busyCycles_absorb_full (db : Byte) {s : State} (hp : s.phase = .accept) (hn : s.n = 63) :
    busyCycles (.absorb db) s = 65 := if_pos ⟨hp, hn⟩

theorem busyCycles_absorb_room (db : Byte) {s : State} (hn : s.n ≠ 63) : busyCycles (.absorb db) s = 0 :=
  if_neg fun hfull => hn hfull.2

/-- One byte: a step, and the 65 of its compression where it fills the block (R296). -/
theorem State.Absorbed.undoneRun_absorb {s : State} {msg : List Byte} (h : s.Absorbed msg) (db : Byte)
    {rest : List Directive} (hh : s.host = directiveFor (.absorb db) :: rest) (hw : HoldsOrWaits rest) :
    ∃ s', UndoneRun (1 + busyCycles (.absorb db) s) s s' ∧ s'.Absorbed (msg ++ [db]) ∧ s'.errCause = s.errCause ∧
      s'.host = rest := by
  have h' := h.with_host rest
  have hstep := UndoneRun.single (done_false_of_accept h.accept) (step_command (by simp) hh h.ready)
  by_cases hn : s.n = 63
  · obtain ⟨hp, _, ht, _, _, _, _, herr, _, _, hhost⟩ := absorbEffect_full_writes db h'.accept hn
    have hrun := undoneRun_compression (by rw [hp]; rfl) ht (by rw [hhost]; exact hw)
    obtain ⟨_, _, _, herr', _, _, hhost'⟩ := compressionEdges_frame (absorbEffect db { s with host := rest })
    rw [busyCycles_absorb_full db h.accept hn]
    exact ⟨_, hstep.trans hrun, h'.absorb_full db hn, herr'.trans herr, hhost'.trans hhost⟩
  · have heffect := absorbEffect_room db h'.accept hn
    rw [busyCycles_absorb_room db hn]
    exact ⟨_, hstep, h'.absorb_room db hn, (congrArg State.errCause heffect :), (congrArg State.host heffect :)⟩

theorem State.Absorbed.busyCycles_absorb {s : State} {msg : List Byte} (h : s.Absorbed msg) (db : Byte) :
    busyCycles (.absorb db) s + 65 * (msg.length / 64) = 65 * ((msg.length + 1) / 64) := by
  have hcount := h.count
  by_cases hn : s.n = 63
  · rw [hn, show (63 : BitVec 6).toNat = 63 from rfl] at hcount
    rw [busyCycles_absorb_full db h.accept hn]
    omega
  · have hlt := (toNat_lt_63_iff s.n).2 hn
    rw [busyCycles_absorb_room db hn]
    omega

theorem directiveFor_absorb_holds (db : Byte) (rest : List Directive) :
    HoldsOrWaits (directiveFor (.absorb db) :: rest) := .inl ⟨_, _, rfl⟩

/-- The bytes of a message, one after another, from a state that has absorbed nothing (R145, R299). -/
theorem undoneRun_update (msg : List Byte) {s : State} (h : s.Absorbed []) {rest : List Directive}
    (hh : s.host = updateDirectives msg ++ rest) (hw : HoldsOrWaits rest) :
    ∃ s', UndoneRun (msg.length + 65 * (msg.length / 64)) s s' ∧ s'.Absorbed msg ∧ s'.errCause = s.errCause ∧
      s'.host = rest := by
  induction msg using List.reverseRecOn generalizing rest with
  | nil => exact ⟨s, .refl s, h, rfl, hh⟩
  | append_singleton msg db ih =>
    rw [updateDirectives, List.map_append, List.append_assoc] at hh
    obtain ⟨u, hrun, hu, herr, hhost⟩ := ih hh (directiveFor_absorb_holds db rest)
    obtain ⟨s', hrun', hs', herr', hhost'⟩ := hu.undoneRun_absorb db hhost hw
    have hsteps : (msg ++ [db]).length + 65 * ((msg ++ [db]).length / 64) =
        msg.length + 65 * (msg.length / 64) + (1 + busyCycles (.absorb db) u) := by
      have := hu.busyCycles_absorb db
      rw [List.length_append, List.length_singleton]
      omega
    rw [hsteps]
    exact ⟨s', hrun.trans hrun', hs', herr'.trans herr, hhost'⟩

/-- FINAL and the one or two compressions that follow it (R215, R296). -/
theorem State.Absorbed.undoneRun_final {s : State} {msg : List Byte} (h : s.Absorbed msg) (data : Byte)
    {rest : List Directive} (hh : s.host = directiveFor (.final data) :: rest) (hw : HoldsOrWaits rest) :
    UndoneRun (1 + 65 * finalCompressions msg.length) s
      (compressionEdges^[finalCompressions msg.length] (finalEffect { s with host := rest })) := by
  have hcount := h.count
  have hstep := UndoneRun.single (done_false_of_accept h.accept) (step_command (by simp) hh h.ready)
  obtain ⟨hp, _, ht, _, _, _, _, _, _, hhost⟩ := finalEffect_accept_writes (h.with_host rest).accept
  change UndoneRun 1 s (finalEffect { s with host := rest }) at hstep
  generalize finalEffect { s with host := rest } = u at hstep hp ht hhost ⊢
  change u.phase = if s.n.toNat < 56 then .cmpFin2 else .cmpFin1 at hp
  have hc : u.phase.compressing = true := by rw [hp]; split <;> rfl
  have hfirst := undoneRun_compression hc ht (by rw [hhost]; exact hw)
  rcases Nat.lt_or_ge (msg.length % 64) 56 with hfits | hspills
  · rw [finalCompressions_of_fits hfits]
    exact hstep.trans hfirst
  · rw [if_neg (by omega)] at hp
    obtain ⟨ht2, _, _, hfin1⟩ := compressionEdges_writes u hc
    obtain ⟨_, _, _, _, _, _, hhost2⟩ := compressionEdges_frame u
    have hc2 : (compressionEdges u).phase.compressing = true := by rw [(hfin1 hp).1]; rfl
    have hsecond := undoneRun_compression hc2 ht2 (by rw [hhost2, hhost]; exact hw)
    rw [finalCompressions_of_spills hspills]
    exact hstep.trans (hfirst.trans hsecond)

/-- The message and FINAL, from a state that has absorbed nothing, in `edges(N)` steps (R299). -/
theorem undoneRun_message (msg : List Byte) {s : State} (h : s.Absorbed []) {rest : List Directive}
    (hh : s.host = updateDirectives msg ++ directiveFor (.final 0) :: .waitDone :: rest) :
    ∃ s', UndoneRun (edgesOf msg.length) s s' ∧ s'.H = digestOf msg ∧ s'.phase = .done ∧ s'.errCause = s.errCause ∧
      s'.host = .waitDone :: rest := by
  obtain ⟨u, hrun, hu, herr, hhost⟩ := undoneRun_update msg h hh (.inl ⟨_, _, rfl⟩)
  have hu' := hu.with_host (.waitDone :: rest)
  have hrun' := hu.undoneRun_final 0 hhost (.inr ⟨_, rfl⟩)
  obtain ⟨hH, hp, _⟩ := hu'.final_digest
  obtain ⟨_, _, _, _, _, _, ferr, _, _, fhost⟩ := finalEffect_accept_writes hu'.accept
  obtain ⟨_, _, _, cerr, _, _, chost⟩ := compressionEdges_iterate_frame
    (finalEffect { u with host := .waitDone :: rest }) (finalCompressions msg.length)
  have hedges : edgesOf msg.length =
      msg.length + 65 * (msg.length / 64) + (1 + 65 * finalCompressions msg.length) := by
    rw [edgesOf, Nat.add_assoc _ 1]
  rw [hedges]
  exact ⟨_, hrun.trans hrun', hH, hp, (cerr.trans ferr).trans herr, chost.trans fhost⟩

/-- Settles O34: after the INIT step the empty message is absorbed, and `undoneRun_message` runs the rest. -/
theorem wholeMessageIsHashed : Obligations.WholeMessageIsHashed := by
  intro msg s rest hr hh
  have hinit := core_run_succ 0 (step_command (by simp) hh hr)
  obtain ⟨s', hrun, hH, hp, herr, hhost⟩ := undoneRun_message msg (rest := rest)
    (initEffect_absorbed { s with host := updateDirectives msg ++ directiveFor (.final 0) :: .waitDone :: rest }) rfl
  refine ⟨fun k hk hlt => ?_, s', (core_run_add 1 _ s _ hinit).trans hrun.run, ?_, herr, hhost⟩
  · obtain ⟨u, hu, hd⟩ := hrun.undone (k - 1) (by omega)
    refine ⟨u, ?_, hd⟩
    rw [← Nat.add_sub_cancel' hk]
    exact (core_run_add 1 (k - 1) s _ hinit).trans hu
  · rw [State.digest?, (done_iff s').2 hp, if_pos rfl, hH]

end Sys2Proof.Machine

/-! SUPPORT. Proofs of the function family (40_functions.md): rotation and shift (R103, R104), Choose and Majority (R105,
R106), the sigma functions (R107 to R110) and the constant tables (R102). -/

namespace Sys2Proof.Machine

/-! ### Rotation and shift (R103, R104) -/

/-- Bit `i` comes from the shift right while `i + n` stays below 32, and from the shift left where it wraps around. -/
theorem rotr_getLsbD (x : Word) {n i : Nat} (hpos : 0 < n) (hn : n < 32) (hi : i < 32) :
    (rotr x n).getLsbD i = x.getLsbD ((i + n) % 32) := by
  rw [rotr, shr, BitVec.getLsbD_or, BitVec.getLsbD_ushiftRight, BitVec.getLsbD_shiftLeft, Nat.add_comm n]
  rcases Nat.lt_or_ge (i + n) 32 with hstays | hwraps
  · have hbelow : i < 32 - n := by omega
    simp [Nat.mod_eq_of_lt hstays, hbelow]
  · have habove : ¬ i < 32 - n := by omega
    have hsource : (i + n) % 32 = i - (32 - n) := by omega
    rw [x.getLsbD_of_ge (i + n) hwraps, hsource]
    simp [habove, hi]

@[simp] theorem shr_toNat (x : Word) (n : Nat) : (shr x n).toNat = x.toNat / 2 ^ n := by
  rw [shr, BitVec.toNat_ushiftRight, Nat.shiftRight_eq_div_pow]

/-- Settles O6: the two cases of a rotated bit, and a right shift as division. -/
theorem rotateAndShiftMoveBits : Obligations.RotateAndShiftMoveBits :=
  ⟨fun x _ _ hpos hn hi => rotr_getLsbD x hpos hn hi, shr_toNat⟩

/-! ### Choose and Majority (R105, R106) -/

@[simp] theorem ch_getLsbD (x y z : Word) (i : Nat) :
    (ch x y z).getLsbD i = if x.getLsbD i then y.getLsbD i else decide (i < 32) && z.getLsbD i := by
  rw [ch, BitVec.getLsbD_or, BitVec.getLsbD_and, BitVec.getLsbD_and, BitVec.getLsbD_not]
  cases x.getLsbD i <;> simp

/-- No bit is 1 in both terms of Choose, so exclusive or does what OR does (R105). -/
theorem ch_eq_xor (x y z : Word) : ch x y z = (x &&& y) ^^^ (~~~x &&& z) := by
  apply BitVec.eq_of_getLsbD_eq
  intro i hi
  rw [ch_getLsbD, BitVec.getLsbD_xor, BitVec.getLsbD_and, BitVec.getLsbD_and, BitVec.getLsbD_not]
  cases x.getLsbD i <;> simp

/-- The exclusive or of the three pairs is 1 where at least one pair is: exactly one pair, or all three. -/
theorem xor_pairs_eq_or_pairs (a b c : Bool) :
    ((a && b) ^^ (b && c) ^^ (c && a)) = ((a && b) || (b && c) || (c && a)) := by
  revert a b c
  decide

@[simp] theorem maj_getLsbD (x y z : Word) (i : Nat) :
    (maj x y z).getLsbD i =
      ((x.getLsbD i && y.getLsbD i) || (y.getLsbD i && z.getLsbD i) || (z.getLsbD i && x.getLsbD i)) := by
  rw [← xor_pairs_eq_or_pairs]
  simp only [maj, BitVec.getLsbD_xor, BitVec.getLsbD_and]

/-- Settles O7: the bit rules and the exclusive-or form; the formulas are the definitions. -/
theorem chooseAndMajorityBitwise : Obligations.ChooseAndMajorityBitwise :=
  ⟨fun x y z i => ⟨ch_getLsbD x y z i, maj_getLsbD x y z i⟩, fun _ _ _ => rfl, ch_eq_xor, fun _ _ _ => rfl,
    by decide, by decide⟩

/-! ### The sigma functions (R107 to R110) -/

/-- Settles O8: the formulas are the definitions, and the examples are evaluated. -/
theorem sigmaFunctions : Obligations.SigmaFunctions :=
  ⟨fun _ => ⟨rfl, rfl, rfl, rfl⟩, by decide, by decide, by decide, by decide⟩

/-! ### The first 64 primes (R102) -/

/-- The numbers below `n` with `p`, in order, are the first values of `Nat.nth p`. -/
theorem filter_range_eq_map_nth (p : Nat → Prop) [DecidablePred p] (n : Nat) :
    (List.range n).filter p = (List.range (Nat.count p n)).map (Nat.nth p) := by
  induction n with
  | zero => simp
  | succ n ih =>
    rw [List.range_succ, List.filter_append, ih, Nat.count_succ]
    by_cases hn : p n
    · simp [hn, List.range_succ, Nat.nth_count]
    · simp [hn]

theorem nth_eq_getD_filter_range (p : Nat → Prop) [DecidablePred p] {k n : Nat}
    (h : k < ((List.range n).filter p).length) : Nat.nth p k = ((List.range n).filter p).getD k 0 := by
  rw [filter_range_eq_map_nth] at h ⊢
  rw [List.length_map, List.length_range] at h
  simp [h]

/-- The primes that R102 names, 2 to 311. -/
def firstPrimes : List Nat :=
  [2, 3, 5, 7, 11, 13, 17, 19, 23, 29, 31, 37, 41, 43, 47, 53, 59, 61, 67, 71, 73, 79, 83, 89, 97, 101, 103, 107, 109, 113,
    127, 131, 137, 139, 149, 151, 157, 163, 167, 173, 179, 181, 191, 193, 197, 199, 211, 223, 227, 229, 233, 239, 241, 251,
    257, 263, 269, 271, 277, 281, 283, 293, 307, 311]

/-- `n` is at least 2, and no number from 2 to 17 divides it but itself. -/
abbrev PassesTrialDivision (n : Nat) : Prop := 2 ≤ n ∧ ∀ m < 18, 2 ≤ m → m < n → ¬ m ∣ n

/-- Below `18 * 18` the numbers that pass are the primes. -/
theorem prime_iff_passesTrialDivision {n : Nat} (hn : n < 18 * 18) : n.Prime ↔ PassesTrialDivision n := by
  constructor
  · intro h
    exact ⟨h.two_le, fun m _ h2 hlt => (Nat.prime_def_lt'.1 h).2 m h2 hlt⟩
  · intro ⟨h2, hdiv⟩
    refine Nat.prime_def_le_sqrt.2 ⟨h2, fun m hm hle => hdiv m ?_ hm ?_⟩
    · exact lt_of_le_of_lt hle (Nat.sqrt_lt.2 hn)
    · exact lt_of_le_of_lt hle (Nat.sqrt_lt_self h2)

theorem filter_prime_range_312 : (List.range 312).filter (fun n => n.Prime) = firstPrimes := by
  have htrial : ∀ n ∈ List.range 312, decide n.Prime = decide (PassesTrialDivision n) := by
    intro n hn
    have hbound : n < 312 := List.mem_range.1 hn
    exact decide_eq_decide.2 (prime_iff_passesTrialDivision (by omega))
  rw [List.filter_congr htrial]
  decide +kernel

theorem nth_prime_eq_firstPrimes {k : Nat} (h : k < 64) : Nat.nth Nat.Prime k = firstPrimes.getD k 0 := by
  have hnth := nth_eq_getD_filter_range Nat.Prime (k := k) (n := 312)
  rw [filter_prime_range_312] at hnth
  exact hnth h

/-! ### The constant tables (R100 to R102) -/

/-- With a whole part `c` above it, `w` makes the integer `e`-th root of `p * 2 ^ (32 * e)`. No whole part of R102 is 7 or
more, as the cube of 7 is above 311 and its square above 19. -/
abbrev CompletesRoot (e p : Nat) (w : Word) : Prop :=
  ∃ c < 7, (c * 2 ^ 32 + w.toNat) ^ e ≤ p * 2 ^ (32 * e) ∧ p * 2 ^ (32 * e) < (c * 2 ^ 32 + w.toNat + 1) ^ e

theorem CompletesRoot.exists_root {e p : Nat} {w : Word} (h : CompletesRoot e p w) :
    ∃ r : Nat, r ^ e ≤ p * 2 ^ (32 * e) ∧ p * 2 ^ (32 * e) < (r + 1) ^ e ∧ w.toNat = r % 2 ^ 32 := by
  obtain ⟨c, _, hle, hlt⟩ := h
  exact ⟨c * 2 ^ 32 + w.toNat, hle, hlt, by rw [Nat.mul_add_mod_self_right, Nat.mod_eq_of_lt w.isLt]⟩

theorem K_completesRoot : ∀ k < 64, CompletesRoot 3 (firstPrimes.getD k 0) (K k) := by decide

theorem IV_completesRoot : ∀ i : Fin 8, CompletesRoot 2 (firstPrimes.getD i 0) IV[i] := by decide

/-- Settles O5: Mathlib's k-th prime is the k-th of `firstPrimes`, and each entry is checked against its root there. -/
theorem constantTablesAreRootsOfPrimes : Obligations.ConstantTablesAreRootsOfPrimes := by
  constructor
  · intro k hk
    rw [nth_prime_eq_firstPrimes hk]
    exact (K_completesRoot k hk).exists_root
  · intro i
    rw [nth_prime_eq_firstPrimes (by omega)]
    exact (IV_completesRoot i).exists_root

end Sys2Proof.Machine

/-! SUPPORT. Proofs of the buffer family (41_buffer.md): ABSORB with room in the block (R140, R141), with the byte that fills it
(R143), after finalisation (R262), and as one more byte of the message (R145, R146). -/

namespace Sys2Proof.Machine

/-! ### The commands of the buffer where they are accepted (R140, R190, R210) -/

theorem exec_absorb_ready (db : Byte) {s : State} (h : s.Ready) : exec (.absorb db) s = .next (absorbEffect db s) :=
  presentAtEdge_ready (absorbEffect db) h

theorem exec_final_ready (data : Byte) {s : State} (h : s.Ready) : exec (.final data) s = .next (finalEffect s) :=
  presentAtEdge_ready finalEffect h

theorem State.Legal.ready_of_phase {s : State} (hl : s.Legal) (hp : s.phase = .accept ∨ s.phase = .done) : s.Ready :=
  ⟨hl, (cmdReady_iff s).2 hp⟩

/-- In ACCEPT an ABSORB records no error, whether it fills the block or not (R140). -/
theorem absorbEffect_errCause_accept (db : Byte) {s : State} (hp : s.phase = .accept) :
    (absorbEffect db s).errCause = s.errCause := by
  by_cases hn : s.n = 63
  · rw [absorbEffect_full db hp hn, startCompress_errCause]
  · rw [absorbEffect_room db hp hn]

/-- Use after finalize, as one record update: the first cause is kept and the fault bit is set (R262, R263, R267). -/
theorem raiseError_misuse_eq {c : ErrCause} (hc : c.isMisuse = true) (s : State) :
    raiseError c s = { s with errCause := if s.errCause = .none then c else s.errCause, misuse := true } := by
  rw [raiseError, hc, Bool.or_true]

/-! ### The buffer after a byte, with its indices as numbers (R50, R51, R141) -/

theorem bufRead_bufAppend_toNat (B : Vector Word 16) (n i : BitVec 6) (v : Byte) :
    bufRead (bufAppend B n v) i =
      if i.toNat = n.toNat then v
      else if n.toNat % 4 = 0 ∧ i.toNat / 4 = n.toNat / 4 then 0
      else bufRead B i := by
  simp only [bufRead_bufAppend, laneIx_eq, Fin.ext_iff, slotOf_val, BitVec.toNat_inj]

/-- Byte 63 is the last of its group, so no other byte changes (R51, R143). -/
theorem bufRead_bufAppend_last (B : Vector Word 16) (i : BitVec 6) (v : Byte) :
    bufRead (bufAppend B 63 v) i = if i.toNat = 63 then v else bufRead B i := by
  simp [bufRead_bufAppend_toNat]

/-! ### The obligations -/

/-- Settles O32: `absorb_room` while the block stays open; `absorb_full`, after the 65 edges, where the byte fills it. -/
theorem absorbExtendsTheMessage : Obligations.AbsorbExtendsTheMessage := by
  intro msg db s h
  have herr := absorbEffect_errCause_accept db h.accept
  refine ⟨fun cmd => edge_ready false cmd h.ready, absorbEffect db s, exec_absorb_ready db h.ready, herr,
    fun hroom => h.absorb_room db ((toNat_lt_63_iff s.n).1 hroom), fun hfull ins hrst hlen => ?_⟩
  have hn : s.n = 63 := BitVec.eq_of_toNat_eq hfull
  obtain ⟨hp, _, ht, _⟩ := absorbEffect_full_writes db h.accept hn
  have hrun := runEdges_compressionEdges ins (absorbEffect db s) hrst (by rw [hp]; rfl) ht hlen
  obtain ⟨_, _, _, herr', _⟩ := compressionEdges_frame (absorbEffect db s)
  exact ⟨_, hrun, h.absorb_full db hn, herr'.trans herr⟩

/-- Settles O10: the effect of ABSORB with room in the block, its buffer read by `bufRead_bufAppend_toNat`. -/
theorem absorbAppendsOneByte : Obligations.AbsorbAppendsOneByte := by
  intro db s hl hp hlt
  have hnext := exec_absorb_ready db (hl.ready_of_phase (.inl hp))
  rw [absorbEffect_room db hp ((toNat_lt_63_iff s.n).1 hlt)] at hnext
  have hcount : (s.n + 1).toNat = s.n.toNat + 1 := by bv_omega
  exact ⟨_, hnext, hcount, rfl, fun i => bufRead_bufAppend_toNat s.B s.n i db,
    rfl, rfl, rfl, rfl, hp, rfl, rfl, rfl, rfl⟩

/-- Settles O11: the effect of ABSORB that fills the block, its buffer read by `bufRead_bufAppend_last`. -/
theorem absorbFillsBlockAndStarts : Obligations.AbsorbFillsBlockAndStarts := by
  intro db s hl hp hn
  have hnext := exec_absorb_ready db (hl.ready_of_phase (.inl hp))
  rw [absorbEffect_full db hp hn, hn] at hnext
  exact ⟨_, hnext, rfl, rfl, fun i => bufRead_bufAppend_last s.B i db, rfl, rfl, rfl, rfl, rfl, rfl, rfl, rfl, rfl⟩

/-- Settles O12: in DONE both commands raise their own cause, and each marks the run as misused. -/
theorem useAfterFinalizeOnlyRecords : Obligations.UseAfterFinalizeOnlyRecords := by
  intro data s hl hp
  have hr := hl.ready_of_phase (.inr hp)
  constructor
  · rw [exec_absorb_ready data hr, absorbEffect_done data hp, raiseError_misuse_eq rfl]
  · rw [exec_final_ready data hr, finalEffect_done hp, raiseError_misuse_eq rfl]

end Sys2Proof.Machine

/-! SUPPORT. Proofs of the compression family (42_compression.md): the message schedule (R161), one edge of the engine (R165,
R167), the window along a run of round edges (R166) and a whole compression (R168). -/

namespace Sys2Proof.Machine

/-! ### The message schedule (R161) -/

theorem schedule_getElem? (blk : Vector Word 16) {j : Nat} (h : j < 64) :
    (schedule blk)[j]? = some (scheduleWord blk j) := by
  have hlen : j < (schedule blk).length := by rwa [schedule_length]
  rw [← schedule_getD blk j h, List.getD_eq_getElem _ _ hlen, List.getElem?_eq_getElem hlen]

/-- The recurrence with its indices counted back from `t`, as R161 writes it. -/
theorem scheduleWord_recurrence (blk : Vector Word 16) {t : Nat} (h : 16 ≤ t) :
    scheduleWord blk t =
      scheduleNext (scheduleWord blk (t - 2)) (scheduleWord blk (t - 7)) (scheduleWord blk (t - 15))
        (scheduleWord blk (t - 16)) := by
  obtain ⟨j, rfl⟩ := Nat.exists_eq_add_of_le' h
  exact scheduleWord_next blk j

/-- Settles O13: the words of the list are `scheduleWord`, which begins with the block and obeys the recurrence. -/
theorem scheduleFollowsRecurrence : Obligations.ScheduleFollowsRecurrence := by
  refine ⟨fun blk => ⟨schedule_length blk, fun j => ?_, fun t h16 h64 => ?_⟩, ?_⟩
  · rw [schedule_getElem? blk (by omega), scheduleWord_block blk j j.isLt]
    rfl
  · rw [schedule_getD blk t h64, schedule_getD blk _ (by omega), schedule_getD blk _ (by omega),
      schedule_getD blk _ (by omega), schedule_getD blk _ (by omega)]
    exact scheduleWord_recurrence blk h16
  · decide +kernel

/-! ### The window along a run of round edges (R166) -/

/-- Settles O16: the edges are round edges, and their window, counter and frame are known after any number of them. -/
theorem windowHoldsSchedule : Obligations.WindowHoldsSchedule := by
  intro ins s hrst hlen hc ht
  have h0 : s.t.toNat = 0 := by rw [ht]; rfl
  have hrun := runEdges_rounds ins s hrst hc (by omega)
  have hcount := roundEdge_iterate_t s ins.length (by omega)
  rw [h0, Nat.zero_add] at hcount
  obtain ⟨hH, _, _, _, hp, _⟩ := roundEdge_iterate_frame s ins.length
  have hbusy := cmdReady_of_compressing (s := roundEdge^[ins.length] s) (by rwa [hp])
  refine ⟨_, hrun, hcount, hH, hbusy, fun i hi hlast => ?_⟩
  rw [schedule_getElem? s.Wwin (by omega), roundEdge_iterate_window s ins.length i hi]

/-! ### One edge of the engine (R165, R167, R190) -/

theorem edge_round (valid : Bool) (cmd : BitVec 10) {s : State} (hc : s.phase.compressing = true) (ht : s.t.toNat < 64) :
    edge false valid cmd s = .next (roundEdge s) := by
  rw [edge_busy valid cmd hc (by omega), engineEdge, if_pos ht]

theorem edge_feedForward (valid : Bool) (cmd : BitVec 10) {s : State} (hc : s.phase.compressing = true)
    (ht : s.t.toNat = 64) : edge false valid cmd s = .next (feedForwardEdge s) := by
  rw [edge_busy valid cmd hc (by omega), engineEdge, if_neg (by rw [ht]; decide)]

theorem shiftWindow_moves (w : Vector Word 16) {i : Nat} (h : i < 15) : (shiftWindow w)[i] = w[i + 1] := by
  rw [shiftWindow_get w i (by omega), dif_pos h]

/-- Settles O14: the edge is `roundEdge`, whose registers are those of the rule. -/
theorem roundEdgeFollowsRule : Obligations.RoundEdgeFollowsRule := by
  intro valid cmd s hc ht
  have hcount : (roundEdge s).t.toNat = s.t.toNat + 1 := roundEdge_iterate_t s 1 (by omega)
  have hmoves (i : Nat) (hi : i < 15) : (roundEdge s).Wwin[i] = s.Wwin[i + 1] := shiftWindow_moves s.Wwin hi
  exact ⟨_, edge_round valid cmd hc ht, hcount, hmoves, rfl, rfl, rfl, rfl, rfl, rfl, rfl, rfl, rfl, rfl, rfl⟩

theorem feedForward_eq (H : Vector Word 8) (w : Working) :
    feedForward H w = #v[H[0] + w.a, H[1] + w.b, H[2] + w.c, H[3] + w.d, H[4] + w.e, H[5] + w.f, H[6] + w.g, H[7] + w.h] :=
  rfl

/-- Only in CMP_FIN1 does the feed-forward edge write the window and the working registers (R167). -/
theorem feedForwardEdge_keeps_window_and_work {s : State} (hp : s.phase ≠ .cmpFin1) :
    (feedForwardEdge s).Wwin = s.Wwin ∧ (feedForwardEdge s).work = s.work := by
  cases h : s.phase with
  | cmpFin1 => exact absurd h hp
  | accept | cmpAbs | cmpFin2 | done | unused5 | unused6 | unused7 => simp [feedForwardEdge, h]

/-- Settles O15: the edge is `feedForwardEdge`; in CMP_FIN1 the working registers are loaded from the sums just written. -/
theorem feedForwardEdgeFollowsRule : Obligations.FeedForwardEdgeFollowsRule := by
  intro valid cmd s hc ht
  have hedge := edge_feedForward valid cmd hc (by rw [ht]; rfl)
  have hkeeps := feedForwardEdge_keeps_window_and_work (s := s)
  obtain ⟨hH, ht', habs, hfin2, hfin1⟩ := feedForwardEdge_writes s hc
  rw [← hH] at hfin1
  rw [feedForward_eq] at hH
  exact ⟨_, hedge, ht', hH, fun hp => ⟨habs hp, hkeeps (by simp [hp])⟩, hfin1,
    fun hp => ⟨hfin2 hp, hkeeps (by simp [hp])⟩, feedForwardEdge_frame s⟩

/-! ### A whole compression (R168, R169) -/

/-- Settles O17: the 65 edges are `compressionEdges`, whose digest, other writes and frame are lemmas of their own. -/
theorem engineComputesCompress : Obligations.EngineComputesCompress := by
  intro ins s hrst hlen hc ht hw
  have hrun := runEdges_compressionEdges ins s hrst hc ht hlen
  have hH := compressionEdges_H s hc ht hw
  obtain ⟨ht', habs, hfin2, hfin1⟩ := compressionEdges_writes s hc
  exact ⟨_, hrun, hH, ht', habs, hfin2, hfin1, compressionEdges_frame s⟩

end Sys2Proof.Machine

/-! SUPPORT. Proofs of the control family (43_control.md): what each kind of edge does (R190, R196), INIT and RSVD (R192, R194),
the registers an edge writes (R191), the steps that complete (R195), and reuse after INIT or reset (R193). -/

namespace Sys2Proof.Machine

/-! ### Commands accepted, and commands ignored (R190, R192, R194) -/

/-- Settles O19: each clause is the equation of its kind of edge. -/
theorem edgeDispatch : Obligations.EdgeDispatch := by
  intro valid cmd s
  exact ⟨edge_rst valid cmd s, fun hr => ⟨edge_ready false cmd hr, rfl⟩, edge_round valid cmd, edge_feedForward valid cmd⟩

/-- Settles O20: INIT takes effect in a ready state, and its effect is this record update. -/
theorem initStartsNewHash : Obligations.InitStartsNewHash := fun data _ hr => exec_init_ready data hr

theorem exec_rsvd_ready (data : Byte) {s : State} (h : s.Ready) : exec (.rsvd data) s = .next (rsvdEffect s) :=
  presentAtEdge_ready rsvdEffect h

/-- RSVD's cause is no use after finalize, so the fault bit stays as it is (R194, R267). -/
theorem rsvdEffect_eq (s : State) :
    rsvdEffect s = { s with errCause := if s.errCause = .none then .reservedOp else s.errCause } := by
  simp [rsvdEffect, raiseError, ErrCause.isMisuse]

/-- Settles O22: RSVD takes effect in a ready state, and only the cause is written. -/
theorem reservedCommandOnlyRecords : Obligations.ReservedCommandOnlyRecords := by
  intro data s hr
  rw [exec_rsvd_ready data hr, rsvdEffect_eq]

theorem exec_command (s : State) {i : Instr} (hi : ∀ k, i ≠ .read k) : exec i s = presentAtEdge (effectOf i) s := by
  cases i with
  | init | absorb | final | rsvd => rfl
  | read k => exact absurd rfl (hi k)

/-- While a compression runs the engine makes its step, whatever command is presented (R190, R294). -/
theorem exec_busy {s : State} {i : Instr} (hi : ∀ k, i ≠ .read k) (hc : s.phase.compressing = true)
    (ht : s.t.toNat ≤ 64) : exec i s = .next (engineEdge s) := by
  rw [exec_command s hi, presentAtEdge_legal _ ⟨used_of_compressing hc, ht⟩, cmdReady_of_compressing hc]
  rfl

/-- Settles O23: the presented command and the idle edge are both the engine's step. -/
theorem commandIgnoredWhileBusy : Obligations.CommandIgnoredWhileBusy := by
  intro i cmd s hi hc ht
  exact ⟨engineEdge s, exec_busy hi hc ht, edge_busy false cmd hc ht, engineEdge_frame s⟩

/-! ### Which command writes which register (R191, R21, R22, R142, R265) -/

theorem absorbEffect_H (db : Byte) (s : State) : (absorbEffect db s).H = s.H := by
  unfold absorbEffect
  split
  · rfl
  · dsimp only
    split <;> rfl

theorem finalEffect_keeps_H_B_L (s : State) :
    (finalEffect s).H = s.H ∧ (finalEffect s).B = s.B ∧ (finalEffect s).L = s.L := by
  unfold finalEffect
  split <;> exact ⟨rfl, rfl, rfl⟩

theorem effectOf_writes_H {i : Instr} {s : State} (h : (effectOf i s).H ≠ s.H) : ∃ d, i = .init d := by
  cases i with
  | init d => exact ⟨d, rfl⟩
  | absorb db => exact absurd (absorbEffect_H db s) h
  | final d => exact absurd (finalEffect_keeps_H_B_L s).1 h
  | rsvd | read => exact absurd rfl h

theorem effectOf_writes_B {i : Instr} {s : State} (hr : s.cmdReady = true) (h : (effectOf i s).B ≠ s.B) :
    s.phase = .accept ∧ ∃ d, i = .absorb d := by
  cases i with
  | absorb db =>
    rcases phase_of_cmdReady hr with hp | hp
    · exact ⟨hp, db, rfl⟩
    · exact absurd (congrArg State.B (absorbEffect_done db hp)) h
  | final d => exact absurd (finalEffect_keeps_H_B_L s).2.1 h
  | init | rsvd | read => exact absurd rfl h

theorem effectOf_writes_L {i : Instr} {s : State} (hr : s.cmdReady = true) (h : (effectOf i s).L ≠ s.L) :
    (∃ d, i = .init d) ∨ s.phase = .accept ∧ ∃ d, i = .absorb d := by
  cases i with
  | init d => exact .inl ⟨d, rfl⟩
  | absorb db =>
    rcases phase_of_cmdReady hr with hp | hp
    · exact .inr ⟨hp, db, rfl⟩
    · exact absurd (congrArg State.L (absorbEffect_done db hp)) h
  | final d => exact absurd (finalEffect_keeps_H_B_L s).2.2 h
  | rsvd | read => exact absurd rfl h

theorem effectOf_writes_errCause {i : Instr} {s : State} (hr : s.cmdReady = true)
    (h : (effectOf i s).errCause ≠ s.errCause) :
    (∃ d, i = .init d) ∨ (∃ d, i = .rsvd d) ∨ s.phase = .done ∧ ∃ d, i = .absorb d ∨ i = .final d := by
  cases i with
  | init d => exact .inl ⟨d, rfl⟩
  | absorb db =>
    rcases phase_of_cmdReady hr with hp | hp
    · exact absurd (absorbEffect_errCause_accept db hp) h
    · exact .inr (.inr ⟨hp, db, .inl rfl⟩)
  | final d =>
    rcases phase_of_cmdReady hr with hp | hp
    · exact absurd (congrArg State.errCause (finalEffect_accept hp)) h
    · exact .inr (.inr ⟨hp, d, .inr rfl⟩)
  | rsvd d => exact .inr (.inl ⟨d, rfl⟩)
  | read => exact absurd rfl h

/-- Settles O26: an idle edge writes nothing, a command what its effect writes, and of these registers an engine edge writes
only `H`, at the feed-forward. -/
theorem onlyTheNamedEdgesWrite : Obligations.OnlyTheNamedEdgesWrite := by
  intro rst valid cmd s s' h hrst
  rcases edge_cases h with ⟨rfl, _⟩ | ⟨_, _, _, _, rfl⟩ | ⟨_, _, hr, hv, rfl⟩ | ⟨_, _, _, _, rfl⟩ | ⟨_, _, hc, ht, rfl⟩
  · cases hrst
  · exact ⟨absurd rfl, absurd rfl, absurd rfl, absurd rfl⟩
  · refine ⟨fun hH => .inl ⟨hr, hv, effectOf_writes_H hH⟩, fun hB => ?_, fun hL => ⟨hr, hv, effectOf_writes_L hr hL⟩,
      fun he => ⟨hr, hv, effectOf_writes_errCause hr he⟩⟩
    obtain ⟨hp, hi⟩ := effectOf_writes_B hr hB
    exact ⟨hp, hv, hi⟩
  · exact ⟨absurd rfl, absurd rfl, absurd rfl, absurd rfl⟩
  · obtain ⟨hB, _, hL, herr, _⟩ := feedForwardEdge_frame s
    exact ⟨fun _ => .inr ⟨hc, BitVec.eq_of_toNat_eq ht⟩, absurd hB, absurd hL, absurd herr⟩

/-! ### The steps that complete (R195, R28, R290) -/

theorem edge_completes_iff (rst valid : Bool) (cmd : BitVec 10) (s : State) :
    (∃ s', edge rst valid cmd s = .next s') ↔ rst = true ∨ s.Legal := by
  simp only [edge_next]
  cases rst <;> simp

theorem observeOnly_completes_iff (s : State) : (∃ s', observeOnly s = .next s') ↔ s.Legal := by
  simp [observeOnly_next]

theorem exec_select_completes_iff (i : BitVec 3) (s : State) :
    (∃ s', exec (decode (.dsel i)) s = .next s') ↔ s.Legal := by
  simp [decode, exec, execRead_next]

/-- Settles O27: a step is an edge, which completes from every state under reset and from the legal ones otherwise, or an
observation, which completes from the legal ones. -/
theorem stepsCompleteExactlyWhereSpecified : Obligations.StepsCompleteExactlyWhereSpecified := by
  intro s
  unfold step hostStep
  rcases hh : s.host with _ | ⟨d, rest⟩
  · simp [edge_completes_iff]
  cases d with
  | drive rst valid cmd => simp [edge_completes_iff, or_comm]
  | issue cmd => cases hr : s.cmdReady <;> simp [edge_completes_iff]
  | reset => simp [edge_completes_iff]
  | idle k => cases k <;> simp [edge_completes_iff, observeOnly_completes_iff]
  | waitReady => cases hr : s.cmdReady <;> simp [edge_completes_iff, observeOnly_completes_iff]
  | waitDone => cases hd : s.done <;> simp [edge_completes_iff, observeOnly_completes_iff]
  | read i => simp [exec_select_completes_iff]

/-! ### The empty message (R192, R290) -/

theorem resetEdge_absorbed (s : State) : (resetEdge s).Absorbed [] :=
  ⟨rfl, rfl, rfl, rfl, rfl, (initEffect_absorbed s).buffer⟩

/-- Settles O31: INIT and reset write the initial vector and the zero counts, and no byte stands below `n = 0`. -/
theorem initAndResetAbsorbNothing : Obligations.InitAndResetAbsorbNothing :=
  ⟨resetEdge_absorbed, fun data s hr => ⟨initEffect s, exec_init_ready data hr, initEffect_absorbed s⟩⟩

/-! ### Reuse after INIT or reset (R193) -/

/-- The two states agree on every register that a later output reads before an edge rewrites it: of the buffer the bytes below
`n` (R144), and the window and `a..h` only while a compression runs (R164). -/
structure State.Indistinguishable (s₁ s₂ : State) : Prop where
  digest : s₁.H = s₂.H
  count : s₁.n = s₂.n
  length : s₁.L = s₂.L
  counter : s₁.t = s₂.t
  phase : s₁.phase = s₂.phase
  cause : s₁.errCause = s₂.errCause
  buffer : ∀ i : BitVec 6, i.toNat < s₁.n.toNat → bufRead s₁.B i = bufRead s₂.B i
  engine : s₁.phase.compressing = true → s₁.Wwin = s₂.Wwin ∧ s₁.work = s₂.work

/-- Two instances that have absorbed the same message, whatever else stands in their buffers and engines. -/
theorem State.Absorbed.indistinguishable {s₁ s₂ : State} {msg : List Byte} (h₁ : s₁.Absorbed msg) (h₂ : s₂.Absorbed msg)
    (hcause : s₁.errCause = s₂.errCause) : s₁.Indistinguishable s₂ := by
  have hcount : s₁.n = s₂.n := BitVec.eq_of_toNat_eq (h₁.count.trans h₂.count.symm)
  exact {
    digest := h₁.digest.trans h₂.digest.symm
    count := hcount
    length := h₁.length.trans h₂.length.symm
    counter := h₁.counter.trans h₂.counter.symm
    phase := h₁.accept.trans h₂.accept.symm
    cause := hcause
    buffer := fun i hi => (h₁.buffer i hi).trans (h₂.buffer i (hcount ▸ hi)).symm
    engine := fun hc => by simp [h₁.accept, Phase.compressing] at hc }

namespace State.Indistinguishable

variable {s₁ s₂ : State}

theorem outputsAt_eq (h : s₁.Indistinguishable s₂) (i : BitVec 3) : s₁.outputsAt i = s₂.outputsAt i := by
  simp only [State.outputsAt, State.refusal?, State.cmdReady, State.done, State.err, State.dout, h.digest, h.counter,
    h.phase, h.cause]

theorem legal (h : s₁.Indistinguishable s₂) (hl : s₁.Legal) : s₂.Legal := by
  rwa [State.Legal, h.phase, h.counter] at hl

theorem cmdReady_eq (h : s₁.Indistinguishable s₂) : s₁.cmdReady = s₂.cmdReady := by
  rw [State.cmdReady, State.cmdReady, h.phase]

theorem after_raiseError (h : s₁.Indistinguishable s₂) (c : ErrCause) :
    (raiseError c s₁).Indistinguishable (raiseError c s₂) :=
  { h with cause := by simp [h.cause] }

/-- Below the new byte the buffers agreed, and a group begun is zero beyond it in both (R141, R144). -/
theorem bufRead_bufAppend_eq (h : s₁.Indistinguishable s₂) (db : Byte) {i : BitVec 6} (hi : i.toNat ≤ s₁.n.toNat) :
    bufRead (bufAppend s₁.B s₁.n db) i = bufRead (bufAppend s₂.B s₂.n db) i := by
  rw [← h.count, bufRead_bufAppend, bufRead_bufAppend]
  by_cases hin : i = s₁.n
  · rw [if_pos hin, if_pos hin]
  · rw [h.buffer i (lt_of_le_of_ne hi fun e => hin (BitVec.eq_of_toNat_eq e))]

/-- FINAL's padded block is made of the bytes below `n` and of `n` and `L` (R211). -/
theorem padBytes_eq (h : s₁.Indistinguishable s₂) :
    wordsOf (padBytes s₁.B s₁.n s₁.L) = wordsOf (padBytes s₂.B s₂.n s₂.L) := by
  apply buffer_ext
  intro i
  rw [← h.count, ← h.length, bufRead_padBytes, bufRead_padBytes]
  by_cases hi : i.toNat < s₁.n.toNat
  · rw [h.buffer i hi]
  · simp only [if_neg hi]

/-- Starting a compression on the same block makes the engines agree, and with `n = 0` no byte of the buffer is read (R164). -/
theorem after_startCompress (h : s₁.Indistinguishable s₂) {blk₁ blk₂ : Vector Word 16} (hblk : blk₁ = blk₂)
    (B₁ B₂ : Vector Word 16) {L₁ L₂ : BitVec 64} (hL : L₁ = L₂) {p₁ p₂ : Phase} (hp : p₁ = p₂) :
    (startCompress blk₁ { s₁ with B := B₁, L := L₁, n := 0, phase := p₁ }).Indistinguishable
      (startCompress blk₂ { s₂ with B := B₂, L := L₂, n := 0, phase := p₂ }) where
  digest := h.digest
  count := rfl
  length := hL
  counter := rfl
  phase := hp
  cause := h.cause
  buffer i hi := absurd hi (Nat.not_lt_zero i.toNat)
  engine _ := ⟨hblk, congrArg loadWorking h.digest⟩

theorem after_absorbEffect_room (h : s₁.Indistinguishable s₂) (db : Byte) (hp : s₁.phase = .accept) (hn : s₁.n ≠ 63) :
    (absorbEffect db s₁).Indistinguishable (absorbEffect db s₂) := by
  rw [absorbEffect_room db hp hn, absorbEffect_room db (h.phase ▸ hp) (h.count ▸ hn)]
  exact { h with
    count := congrArg (· + 1) h.count
    length := congrArg (· + 8) h.length
    buffer := fun i (hi : i.toNat < (s₁.n + 1).toNat) => h.bufRead_bufAppend_eq db (by bv_omega) }

theorem after_absorbEffect_full (h : s₁.Indistinguishable s₂) (db : Byte) (hp : s₁.phase = .accept) (hn : s₁.n = 63) :
    (absorbEffect db s₁).Indistinguishable (absorbEffect db s₂) := by
  have hblk : bufAppend s₁.B s₁.n db = bufAppend s₂.B s₂.n db :=
    buffer_ext _ _ fun i => h.bufRead_bufAppend_eq db (by bv_omega)
  rw [absorbEffect_full db hp hn, absorbEffect_full db (h.phase ▸ hp) (h.count ▸ hn)]
  exact h.after_startCompress hblk _ _ (congrArg (· + 8) h.length) rfl

theorem after_absorbEffect (h : s₁.Indistinguishable s₂) (db : Byte) (hr : s₁.cmdReady = true) :
    (absorbEffect db s₁).Indistinguishable (absorbEffect db s₂) := by
  rcases phase_of_cmdReady hr with hp | hp
  · by_cases hn : s₁.n = 63
    · exact h.after_absorbEffect_full db hp hn
    · exact h.after_absorbEffect_room db hp hn
  · rw [absorbEffect_done db hp, absorbEffect_done db (h.phase ▸ hp)]
    exact h.after_raiseError _

theorem after_finalEffect (h : s₁.Indistinguishable s₂) (hr : s₁.cmdReady = true) :
    (finalEffect s₁).Indistinguishable (finalEffect s₂) := by
  rcases phase_of_cmdReady hr with hp | hp
  · rw [finalEffect_accept hp, finalEffect_accept (h.phase ▸ hp)]
    exact h.after_startCompress h.padBytes_eq _ _ h.length (by rw [h.count])
  · rw [finalEffect_done hp, finalEffect_done (h.phase ▸ hp)]
    exact h.after_raiseError _

theorem after_effectOf (h : s₁.Indistinguishable s₂) (i : Instr) (hr : s₁.cmdReady = true) :
    (effectOf i s₁).Indistinguishable (effectOf i s₂) := by
  cases i with
  | init => exact (initEffect_absorbed s₁).indistinguishable (initEffect_absorbed s₂) rfl
  | absorb db => exact h.after_absorbEffect db hr
  | final => exact h.after_finalEffect hr
  | rsvd => exact h.after_raiseError _
  | read => exact h

theorem after_roundEdge (h : s₁.Indistinguishable s₂) (hc : s₁.phase.compressing = true) :
    (roundEdge s₁).Indistinguishable (roundEdge s₂) := by
  obtain ⟨hwin, hwork⟩ := h.engine hc
  exact { h with
    counter := congrArg (· + 1) h.counter
    engine := fun _ => by simp [hwin, hwork, h.counter] }

/-- The sums agree, and so does what CMP_FIN1's second compression starts from (R167). -/
theorem after_feedForwardEdge (h : s₁.Indistinguishable s₂) (hc : s₁.phase.compressing = true) :
    (feedForwardEdge s₁).Indistinguishable (feedForwardEdge s₂) := by
  have hsums : feedForward s₁.H s₁.work = feedForward s₂.H s₂.work := by rw [h.digest, (h.engine hc).2]
  have hp₂ := h.phase.symm
  cases hp : s₁.phase with
  | cmpAbs | cmpFin2 =>
    simp only [feedForwardEdge, hp, hp₂]
    exact { h with digest := hsums, counter := rfl, phase := rfl, engine := nofun }
  | cmpFin1 =>
    simp only [feedForwardEdge, hp, hp₂]
    exact { h with
      digest := hsums
      counter := rfl
      phase := rfl
      engine := fun _ => ⟨congrArg trailerBlock h.length, congrArg loadWorking hsums⟩ }
  | accept | done | unused5 | unused6 | unused7 => simp [hp, Phase.compressing] at hc

theorem after_engineEdge (h : s₁.Indistinguishable s₂) (hc : s₁.phase.compressing = true) :
    (engineEdge s₁).Indistinguishable (engineEdge s₂) := by
  rw [engineEdge, engineEdge, ← h.counter]
  split
  · exact h.after_roundEdge hc
  · exact h.after_feedForwardEdge hc

theorem after_inputEffect (h : s₁.Indistinguishable s₂) (valid : Bool) (cmd : BitVec 10) (hr : s₁.cmdReady = true) :
    (inputEffect valid cmd s₁).Indistinguishable (inputEffect valid cmd s₂) := by
  cases valid with
  | false => exact h
  | true => exact h.after_effectOf _ hr

theorem after_resetEdge (s₁ s₂ : State) : (resetEdge s₁).Indistinguishable (resetEdge s₂) :=
  (resetEdge_absorbed s₁).indistinguishable (resetEdge_absorbed s₂) rfl

/-- The same inputs make the same kind of edge in both states, since the kind is read off `phase`, `t` and the inputs (R190). -/
theorem after_edge (h : s₁.Indistinguishable s₂) {rst valid : Bool} {cmd : BitVec 10} {s₁' s₂' : State}
    (h₁ : edge rst valid cmd s₁ = .next s₁') (h₂ : edge rst valid cmd s₂ = .next s₂') : s₁'.Indistinguishable s₂' := by
  rw [edge_next] at h₁ h₂
  cases rst with
  | true =>
    rw [if_pos rfl] at h₁ h₂
    rw [h₁, h₂]
    exact after_resetEdge s₁ s₂
  | false =>
    rw [if_neg Bool.false_ne_true] at h₁ h₂
    obtain ⟨hl, h₁⟩ := h₁
    obtain ⟨_, h₂⟩ := h₂
    rw [h₁, h₂, ← h.cmdReady_eq]
    cases hr : s₁.cmdReady with
    | true => exact h.after_inputEffect valid cmd hr
    | false => exact h.after_engineEdge (compressing_of_not_cmdReady hl hr)

end State.Indistinguishable

theorem State.Inv.legal {s : State} (hi : s.Inv) : s.Legal := by
  have hu := hi.phaseUsed
  refine ⟨hu, ?_⟩
  cases hp : s.phase with
  | accept => simp [hi.idleCounter (.inl hp)]
  | done => simp [hi.idleCounter (.inr hp)]
  | cmpAbs | cmpFin1 | cmpFin2 => exact hi.busyCounter (by rw [hp]; rfl)
  | unused5 | unused6 | unused7 => simp [hp, Phase.used] at hu

theorem State.Absorbed.inv_of_nil {s : State} (h : s.Absorbed []) : s.Inv :=
  inv_of_empty h.accept h.counter (BitVec.eq_of_toNat_eq h.count) h.length

theorem portTrace_cons {rst valid : Bool} {cmd : BitVec 10} {s s' : State} (h : edge rst valid cmd s = .next s')
    (ins : List EdgeInputs) (i : BitVec 3) :
    portTrace ((rst, valid, cmd) :: ins) s i = s.outputsAt i :: portTrace ins s' i := by
  rw [portTrace, h]

/-- From an invariant state every edge completes, and a state that cannot be told apart from it shows the same (R193). -/
theorem State.Indistinguishable.portTrace_eq {s₁ s₂ : State} (h : s₁.Indistinguishable s₂) (hi : s₁.Inv)
    (ins : List EdgeInputs) (i : BitVec 3) :
    (portTrace ins s₁ i).length = ins.length + 1 ∧ portTrace ins s₁ i = portTrace ins s₂ i := by
  induction ins generalizing s₁ s₂ with
  | nil => exact ⟨rfl, congrArg ([·]) (h.outputsAt_eq i)⟩
  | cons x ins ih =>
    obtain ⟨rst, valid, cmd⟩ := x
    obtain ⟨s₁', h₁⟩ := (edge_completes_iff rst valid cmd s₁).2 (.inr hi.legal)
    obtain ⟨s₂', h₂⟩ := (edge_completes_iff rst valid cmd s₂).2 (.inr (h.legal hi.legal))
    obtain ⟨hlen, htrace⟩ := ih (h.after_edge h₁ h₂) (edge_keeps_inv hi h₁)
    rw [portTrace_cons h₁, portTrace_cons h₂, ← h.outputsAt_eq i, ← htrace]
    exact ⟨congrArg (· + 1) hlen, rfl⟩

theorem absorbed_nil_after_init_or_reset {s t : State}
    (h : t = resetEdge s ∨ s.Ready ∧ ∃ data, exec (.init data) s = .next t) : t.Absorbed [] ∧ t.errCause = .none := by
  rcases h with rfl | ⟨hr, data, h⟩
  · exact ⟨resetEdge_absorbed s, rfl⟩
  · rw [exec_init_ready data hr, Host.Outcome.next.injEq] at h
    rw [← h]
    exact ⟨initEffect_absorbed s, rfl⟩

/-- Settles O24: both instances have absorbed the empty message with no cause recorded, so they cannot be told apart, and no
edge changes that. -/
theorem outputsForgetEverythingBeforeInit : Obligations.OutputsForgetEverythingBeforeInit := by
  intro s₁ s₂ t₁ t₂ h₁ h₂ ins i
  obtain ⟨ha₁, hcause₁⟩ := absorbed_nil_after_init_or_reset h₁
  obtain ⟨ha₂, hcause₂⟩ := absorbed_nil_after_init_or_reset h₂
  have hsame := ha₁.indistinguishable ha₂ (hcause₁.trans hcause₂.symm)
  exact hsame.portTrace_eq ha₁.inv_of_nil ins i

end Sys2Proof.Machine

/-! SUPPORT. Proofs of the finalisation family (44_finalization.md): FINAL's padded block (R210 to R212), the trailer block
(R214), the padded message (R215, R216), the digest after FINAL (R217, R241) and how long it stays (R243). -/

namespace Sys2Proof.Machine

/-! ### The length trailer and the padded message (R54, R214 to R216) -/

/-- Settles O29: every word of the block by `trailerBlock_getElem`, and its last two are the halves of `L`. -/
theorem trailerBlockHoldsLength : Obligations.TrailerBlockHoldsLength := by
  intro L
  refine ⟨fun j hj => ?_, ?_⟩
  · rw [trailerBlock_getElem L j (by omega), if_neg (by omega), if_neg (by omega)]
  · rw [trailerBlock_getElem L 14 (by omega), if_pos rfl, trailerBlock_getElem L 15 (by omega), if_neg (by omega), if_pos rfl]
    exact (BitVec.extractLsb'_append_extractLsb'_eq_extractLsb' rfl).trans BitVec.extractLsb'_eq_self

theorem be64_toList (v : BitVec 64) : (be64 v).toList = (List.range 8).map (be64Byte v) := by
  rw [be64, Vector.toList_ofFn, List.ofFn_eq_map, ← List.map_coe_finRange_eq_range, List.map_map]
  rfl

theorem padZeros_fills_block (N : Nat) : (N + 1 + padZeros N + 8) % 64 = 0 := by
  unfold padZeros
  omega

/-- No smaller number of zero bytes fills the block (R216). -/
theorem padZeros_le_of_fills_block {N z : Nat} (h : (N + 1 + z + 8) % 64 = 0) : padZeros N ≤ z := by
  unfold padZeros
  omega

theorem finalCompressions_eq (N : Nat) : finalCompressions N = if N % 64 ≤ 55 then 1 else 2 :=
  if_congr Nat.lt_succ_iff rfl rfl

/-- Settles O30: the bytes of the trailer by `be64_toList`, `z` by its two properties, the length by `paddedMessage_blocks`. -/
theorem paddedMessageFillsBlocks : Obligations.PaddedMessageFillsBlocks := by
  intro msg
  refine ⟨?_, padZeros_fills_block msg.length, fun z hz hfills => ?_, ?_⟩
  · rw [paddedMessage, be64_toList]
    rfl
  · exact absurd (padZeros_le_of_fills_block hfills) (Nat.not_le.2 hz)
  · have hblocks := paddedMessage_blocks msg
    have hfills := padZeros_fills_block msg.length
    rw [← paddedMessage_length] at hfills
    rw [← finalCompressions_eq]
    omega

/-! ### FINAL in ACCEPT (R210 to R212) -/

/-- The trailer's byte at index `i` of a block, as a shift (R211). -/
theorem be64Byte_of_trailer (L : BitVec 64) {i : Nat} (h : 56 ≤ i) :
    be64Byte L (i - 56) = (L >>> (8 * (63 - i))).setWidth 8 := by
  rw [show 8 * (63 - i) = 56 - 8 * (i - 56) by omega]
  rfl

/-- The block that FINAL loads, with its bounds and its trailer in the spec's own form (R211). -/
theorem bufRead_padBytes_shift (B : Vector Word 16) (n : BitVec 6) (L : BitVec 64) (i : BitVec 6) :
    bufRead (wordsOf (padBytes B n L)) i =
      if n.toNat ≤ 55 ∧ 56 ≤ i.toNat then (L >>> (8 * (63 - i.toNat))).setWidth 8
      else if i.toNat < n.toNat then bufRead B i
      else if i.toNat = n.toNat then 0x80
      else 0x00 := by
  rw [bufRead_padBytes]
  refine if_ctx_congr (and_congr_left' Nat.lt_succ_iff) (fun htrailer => ?_) fun _ => rfl
  exact be64Byte_of_trailer L htrailer.2

/-- Settles O28: the window by `bufRead_padBytes_shift`, the other registers by `finalEffect_accept_writes`. -/
theorem finalPadsAndStarts : Obligations.FinalPadsAndStarts := by
  intro data s hl hp
  obtain ⟨hphase, hn, ht, hframe⟩ := finalEffect_accept_writes hp
  have hfits : s.n.toNat < 56 ↔ s.n.toNat ≤ 55 := Nat.lt_succ_iff
  refine ⟨finalEffect s, exec_final_ready data (hl.ready_of_phase (.inl hp)), fun i => ?_, ?_, hn, ht, ?_, hframe⟩
  · rw [finalEffect_accept hp]
    exact bufRead_padBytes_shift s.B s.n s.L i
  · simp only [hphase, hfits]
  · rw [finalEffect_accept hp]
    rfl

/-! ### The compressions that FINAL starts, as a run of edges (R168, R215) -/

/-- A run of `k` compressions one after another, where each of them finds its start (R168). -/
theorem runEdges_compressionEdges_iterate (k : Nat) {s : State} {ins : List EdgeInputs} (hrst : NoReset ins)
    (hlen : ins.length = 65 * k)
    (hstart : ∀ j < k, (compressionEdges^[j] s).phase.compressing = true ∧ (compressionEdges^[j] s).t = 0) :
    runEdges ins s = .next (compressionEdges^[k] s) := by
  induction k generalizing s ins with
  | zero =>
    rw [List.length_eq_zero_iff.1 hlen]
    rfl
  | succ k ih =>
    obtain ⟨hc, ht⟩ := hstart 0 k.succ_pos
    have hfirst := runEdges_compressionEdges (ins.take 65) s (fun x hx => hrst x (List.mem_of_mem_take hx)) hc ht
      (by rw [List.length_take]; omega)
    have hrest := ih (s := compressionEdges s) (ins := ins.drop 65) (fun x hx => hrst x (List.mem_of_mem_drop hx))
      (by rw [List.length_drop]; omega) fun j hj => hstart (j + 1) (by omega)
    rw [← List.take_append_drop 65 ins, runEdges_append _ _ _ _ hfirst]
    exact hrest

/-- Each compression that follows FINAL finds its start: the first one FINAL's, a second one CMP_FIN1's (R164, R212). -/
theorem State.Absorbed.final_compressions_start {s : State} {msg : List Byte} (h : s.Absorbed msg) {j : Nat}
    (hj : j < finalCompressions msg.length) :
    (compressionEdges^[j] (finalEffect s)).phase.compressing = true ∧ (compressionEdges^[j] (finalEffect s)).t = 0 := by
  have hcount := h.count
  obtain ⟨hp, _, ht, _⟩ := finalEffect_accept_writes h.accept
  have hc : (finalEffect s).phase.compressing = true := by rw [hp]; split <;> rfl
  rcases Nat.lt_or_ge (msg.length % 64) 56 with hfits | hspills
  · rw [finalCompressions_of_fits hfits, Nat.lt_one_iff] at hj
    rw [hj]
    exact ⟨hc, ht⟩
  · rw [finalCompressions_of_spills hspills] at hj
    rw [if_neg (by omega)] at hp
    obtain ⟨ht2, _, _, hfin1⟩ := compressionEdges_writes (finalEffect s) hc
    obtain ⟨hp2, _⟩ := hfin1 hp
    have hc2 : (compressionEdges (finalEffect s)).phase.compressing = true := by rw [hp2]; rfl
    interval_cases j
    · exact ⟨hc, ht⟩
    · exact ⟨hc2, ht2⟩

/-- Settles O33: the edges are FINAL's compressions, after which `final_digest` holds and the frames keep the rest. -/
theorem finalYieldsTheDigest : Obligations.FinalYieldsTheDigest := by
  intro msg data s h
  refine ⟨finalEffect s, exec_final_ready data h.ready, fun ins hrst hlen => ?_⟩
  have hrun := runEdges_compressionEdges_iterate _ hrst hlen fun j hj => h.final_compressions_start hj
  obtain ⟨hH, hp, ht⟩ := h.final_digest
  obtain ⟨_, hn, _, _, hB, hL, herr, _⟩ := finalEffect_accept_writes h.accept
  obtain ⟨hB', hn', hL', herr', _⟩ := compressionEdges_iterate_frame (finalEffect s) (finalCompressions msg.length)
  refine ⟨_, hrun, ?_, hp, hn'.trans hn, (hL'.trans hL).trans h.length, ht, hB'.trans hB, herr'.trans herr⟩
  rw [State.digest?, (done_iff _).2 hp, if_pos rfl, hH]

/-! ### The digest in DONE (R217, R243) -/

theorem effectOf_H_of_not_init {i : Instr} (s : State) (hi : ∀ d, i ≠ .init d) : (effectOf i s).H = s.H :=
  not_not.1 fun hH => Exists.elim (effectOf_writes_H hH) hi

/-- Settles O36: an edge in DONE is a reset, idle or a command, of which only INIT writes `H` or leaves DONE. -/
theorem digestStaysUntilInitOrReset : Obligations.DigestStaysUntilInitOrReset := by
  intro rst valid cmd s s' hp h
  have hnotBusy : s.phase.compressing ≠ true := by rw [hp]; decide
  rcases edge_cases h with ⟨hrst, _⟩ | ⟨_, _, _, _, rfl⟩ | ⟨_, _, _, hvalid, rfl⟩ | ⟨_, _, hc, _⟩ | ⟨_, _, hc, _⟩
  · exact .inl hrst
  · exact .inr (.inr ⟨rfl, hp⟩)
  · by_cases hinit : ∃ data, decodeCmd cmd = .init data
    · exact .inr (.inl ⟨hvalid, hinit⟩)
    · have hi := not_exists.1 hinit
      exact .inr (.inr ⟨effectOf_H_of_not_init s hi, effectOf_phase_done hp hi⟩)
  · exact absurd hc hnotBusy
  · exact absurd hc hnotBusy

end Sys2Proof.Machine

/-! SUPPORT. Proofs of the digest output family (45_digest_output.md): what READ does and what `dout` then shows (R240). -/

namespace Sys2Proof.Machine

theorem exec_read_next (i : BitVec 3) (s s' : State) :
    exec (.read i) s = .next s' ↔ s.Legal ∧ s' = { s with dsel := i } :=
  execRead_next i s s'

theorem outputs_dout_legal {s : State} (h : s.Legal) : s.outputs.map Outputs.dout = some s.H[s.dsel.toFin] := by
  rw [State.outputs, outputsAt_legal h, Option.map_some, State.dout]

/-- Settles O35: READ writes `dsel` alone, so the state stays legal and its outputs show the word `dsel` selects. -/
theorem readShowsSelectedWord : Obligations.ReadShowsSelectedWord := by
  intro i s hl
  refine ⟨(exec_read_next i s _).2 ⟨hl, rfl⟩, fun s' h => ?_⟩
  obtain ⟨_, rfl⟩ := (exec_read_next i s s').1 h
  have hl' : ({ s with dsel := i } : State).Legal := hl
  exact outputs_dout_legal hl'

end Sys2Proof.Machine

/-! SUPPORT. Proofs of the exceptions family (60_exceptions.md): the error cause after an edge (R261, R263, R265) and the model's
fault bit for use after finalize (R267). -/

namespace Sys2Proof.Machine

/-! ### The error cause (R261, R263, R265) -/

theorem code_eq_zero_iff (c : ErrCause) : c.code = 0b00 ↔ c = .none := by
  cases c <;> decide

/-- `err` shows that a cause is recorded, since NONE alone has the code 0 (R34, R261). -/
theorem err_iff_errCause (s : State) : s.err = true ↔ s.errCause ≠ .none :=
  (err_iff s).trans (code_eq_zero_iff s.errCause).not

/-- An accepted command leaves the cause that the table of R261 gives. -/
theorem effectOf_errCause (i : Instr) {s : State} (hr : s.cmdReady = true) :
    (effectOf i s).errCause = causeAfterCommand i s := by
  cases i with
  | absorb db =>
    rcases phase_of_cmdReady hr with hp | hp
    · simp [effectOf, causeAfterCommand, absorbEffect_errCause_accept db hp, hp]
    · simp [effectOf, causeAfterCommand, recordFirst, absorbEffect_done db hp, hp]
  | final data =>
    rcases phase_of_cmdReady hr with hp | hp
    · simp [effectOf, causeAfterCommand, finalEffect_accept hp, hp]
    · simp [effectOf, causeAfterCommand, recordFirst, finalEffect_done hp, hp]
  | init | rsvd | read => rfl

/-- Settles O39: the codes by evaluation; then a reset clears the cause, an accepted command leaves the one of the table, and
no idle or engine edge writes it. -/
theorem errorCauseAfterEdge : Obligations.ErrorCauseAfterEdge := by
  refine ⟨⟨rfl, rfl, rfl, rfl⟩, fun rst valid cmd s s' h => ⟨?_, err_iff_errCause s'⟩⟩
  rcases edge_cases h with ⟨rfl, rfl⟩ | ⟨rfl, _, _, rfl, rfl⟩ | ⟨rfl, _, hr, rfl, rfl⟩ | ⟨rfl, _, hc, _, rfl⟩ |
    ⟨rfl, _, hc, _, rfl⟩
  · rfl
  · simp
  · simp [hr, decode, effectOf_errCause (decodeCmd cmd) hr]
  · simp [cmdReady_of_compressing hc]
  · obtain ⟨_, _, _, herr, _⟩ := feedForwardEdge_frame s
    simp [cmdReady_of_compressing hc, herr]

/-! ### The fault bit (R267, log entry 4) -/

/-- In ACCEPT an ABSORB is no misuse, whether it fills the block or not (R140, R267). -/
theorem absorbEffect_misuse_accept (db : Byte) {s : State} (hp : s.phase = .accept) :
    (absorbEffect db s).misuse = s.misuse := by
  by_cases hn : s.n = 63
  · rw [absorbEffect_full db hp hn, startCompress_misuse]
  · rw [absorbEffect_room db hp hn]

/-- Of the accepted commands exactly ABSORB and FINAL in DONE set the fault bit, and none clears it (R267). -/
theorem effectOf_misuse_iff (i : Instr) {s : State} (hr : s.cmdReady = true) :
    (effectOf i s).misuse = true ↔
      s.misuse = true ∨ s.phase = .done ∧ ∃ data, i = .absorb data ∨ i = .final data := by
  cases i with
  | absorb db =>
    rcases phase_of_cmdReady hr with hp | hp
    · simp [effectOf, absorbEffect_misuse_accept db hp, hp]
    · simp [effectOf, absorbEffect_done db hp, ErrCause.isMisuse, hp]
  | final data =>
    rcases phase_of_cmdReady hr with hp | hp
    · simp [effectOf, finalEffect_accept hp, hp]
    · simp [effectOf, finalEffect_done hp, ErrCause.isMisuse, hp]
  | rsvd data => simp [effectOf, rsvdEffect_eq]
  | init data => simp [effectOf, initEffect]
  | read k => simp [effectOf]

theorem phase_ne_done_of_compressing {s : State} (hc : s.phase.compressing = true) : s.phase ≠ .done := by
  intro hp
  rw [hp] at hc
  cases hc

/-- Settles O40: a reset clears the bit, an accepted command sets it as `effectOf_misuse_iff` says, and no idle or engine edge
writes it. -/
theorem misuseBitMarksUseAfterFinalize : Obligations.MisuseBitMarksUseAfterFinalize := by
  intro rst valid cmd s s' h
  rcases edge_cases h with ⟨rfl, rfl⟩ | ⟨rfl, _, _, rfl, rfl⟩ | ⟨rfl, _, hr, rfl, rfl⟩ | ⟨rfl, _, hc, _, rfl⟩ |
    ⟨rfl, _, hc, _, rfl⟩
  · simp
  · simp
  · simp [effectOf_misuse_iff (decodeCmd cmd) hr, decode]
  · simp [phase_ne_done_of_compressing hc]
  · obtain ⟨_, _, _, _, _, hmisuse, _⟩ := feedForwardEdge_frame s
    simp [phase_ne_done_of_compressing hc, hmisuse]

end Sys2Proof.Machine

/-! SUPPORT. Proofs of the reset and hazards family (70_reset_and_hazards.md): the reset edge and the reset state (R290, R292), the
cycles with `cmd_ready = 0` after a command (R296), and the wait of a host that holds one (R294). -/

namespace Sys2Proof.Machine

/-! ### Reset (R290, R292) -/

/-- Settles O41: the edge is `resetEdge`, which writes constants only. -/
theorem resetEdgeFromEveryState : Obligations.ResetEdgeFromEveryState := fun valid cmd s =>
  ⟨resetEdge s, edge_rst valid cmd s, rfl, rfl, rfl, rfl, rfl, rfl, rfl, rfl, rfl, rfl, rfl⟩

/-- Settles O42: the registers by definition, the outputs because the state is legal. -/
theorem resetStateAsSpecified : Obligations.ResetStateAsSpecified :=
  ⟨rfl, rfl, rfl, rfl, rfl, rfl, outputsAt_legal invariantHoldsAtReset.legal⟩

/-! ### The edges left until a command is accepted again (R169, R296) -/

/-- Edges without reset until `cmd_ready = 1`: what is left of this compression, and in CMP_FIN1 the trailer's 65 after it. -/
def State.busyEdgesLeft (s : State) : Nat :=
  if s.phase.compressing then (if s.phase = .cmpFin1 then 130 else 65) - s.t.toNat else 0

theorem busyEdgesLeft_of_compressing {s : State} (hc : s.phase.compressing = true) :
    s.busyEdgesLeft = (if s.phase = .cmpFin1 then 130 else 65) - s.t.toNat := if_pos hc

theorem busyEdgesLeft_of_cmdReady {s : State} (h : s.cmdReady = true) : s.busyEdgesLeft = 0 := by
  rcases phase_of_cmdReady h with hp | hp <;> simp [State.busyEdgesLeft, hp, Phase.compressing]

theorem busyEdgesLeft_le (s : State) : s.busyEdgesLeft ≤ 130 := by
  unfold State.busyEdgesLeft
  split_ifs <;> omega

theorem busyEdgesLeft_pos {s : State} (hl : s.Legal) (hc : s.phase.compressing = true) : 0 < s.busyEdgesLeft := by
  have ht := hl.2
  rw [busyEdgesLeft_of_compressing hc]
  split <;> omega

theorem compressing_of_busyEdgesLeft_pos {s : State} (h : 0 < s.busyEdgesLeft) : s.phase.compressing = true := by
  by_contra hc
  rw [State.busyEdgesLeft, if_neg hc] at h
  exact Nat.lt_irrefl 0 h

theorem cmdReady_eq_busyEdgesLeft {s : State} (hl : s.Legal) : s.cmdReady = decide (s.busyEdgesLeft = 0) := by
  cases hr : s.cmdReady with
  | true => simp [busyEdgesLeft_of_cmdReady hr]
  | false => simp [(busyEdgesLeft_pos hl (compressing_of_not_cmdReady hl hr)).ne']

theorem roundEdge_busyEdgesLeft {s : State} (hc : s.phase.compressing = true) (ht : s.t.toNat < 64) :
    (roundEdge s).Legal ∧ (roundEdge s).busyEdgesLeft + 1 = s.busyEdgesLeft := by
  have ht1 : (roundEdge s).t.toNat = s.t.toNat + 1 := roundEdge_iterate_t s 1 (by omega)
  refine ⟨⟨used_of_compressing hc, by omega⟩, ?_⟩
  rw [busyEdgesLeft_of_compressing hc, busyEdgesLeft_of_compressing (s := roundEdge s) hc, roundEdge_phase, ht1]
  split <;> omega

theorem feedForwardEdge_busyEdgesLeft {s : State} (hc : s.phase.compressing = true) (ht : s.t.toNat = 64) :
    (feedForwardEdge s).Legal ∧ (feedForwardEdge s).busyEdgesLeft + 1 = s.busyEdgesLeft := by
  obtain ⟨_, ht0, _⟩ := feedForwardEdge_writes s hc
  rcases feedForwardEdge_phase_cases hc with ⟨hp, hp'⟩ | ⟨hp, hp'⟩ | ⟨hp, hp'⟩ <;>
    simp [State.busyEdgesLeft, State.Legal, Phase.used, Phase.compressing, hp, hp', ht, ht0]

theorem engineEdge_busyEdgesLeft {s : State} (hl : s.Legal) (hc : s.phase.compressing = true) :
    (engineEdge s).Legal ∧ (engineEdge s).busyEdgesLeft + 1 = s.busyEdgesLeft := by
  obtain ⟨_, ht⟩ := hl
  unfold engineEdge
  split
  case isTrue hround => exact roundEdge_busyEdgesLeft hc hround
  case isFalse hround => exact feedForwardEdge_busyEdgesLeft hc (Nat.le_antisymm ht (Nat.not_lt.1 hround))

/-- The count goes down by one an edge until `cmd_ready` is 1 (R296). -/
theorem engineEdge_iterate_busyEdgesLeft {s : State} (hl : s.Legal) {k : Nat} (hk : k ≤ s.busyEdgesLeft) :
    (engineEdge^[k] s).Legal ∧ (engineEdge^[k] s).busyEdgesLeft + k = s.busyEdgesLeft := by
  induction k with
  | zero => exact ⟨hl, rfl⟩
  | succ k ih =>
    obtain ⟨hlk, hleft⟩ := ih (by omega)
    have hc := compressing_of_busyEdgesLeft_pos (s := engineEdge^[k] s) (by omega)
    obtain ⟨hl', hleft'⟩ := engineEdge_busyEdgesLeft hlk hc
    rw [Function.iterate_succ_apply']
    exact ⟨hl', by omega⟩

theorem engineEdge_iterate_cmdReady {s : State} (hl : s.Legal) {k : Nat} (hk : k ≤ s.busyEdgesLeft) :
    (engineEdge^[k] s).cmdReady = decide (k = s.busyEdgesLeft) := by
  obtain ⟨hlk, hleft⟩ := engineEdge_iterate_busyEdgesLeft hl hk
  rw [cmdReady_eq_busyEdgesLeft hlk, decide_eq_decide]
  omega

theorem engineEdge_host (s : State) : (engineEdge s).host = s.host := by
  obtain ⟨_, _, _, _, _, _, hhost⟩ := engineEdge_frame s
  exact hhost

theorem engineEdge_iterate_host (s : State) (k : Nat) : (engineEdge^[k] s).host = s.host :=
  Function.Iterate.rec (fun u : State => u.host = s.host) rfl (fun u hu => (engineEdge_host u).trans hu) k

/-! ### The cycles of the table, as a run of edges (R296) -/

/-- Until `cmd_ready` is 1 the edges are the engine's, whatever is presented meanwhile (R190, R294). -/
theorem runEdges_busy {ins : List EdgeInputs} {s : State} (hrst : NoReset ins) (hl : s.Legal)
    (hk : ins.length ≤ s.busyEdgesLeft) : runEdges ins s = .next (engineEdge^[ins.length] s) := by
  induction ins generalizing s with
  | nil => rfl
  | cons x ins ih =>
    obtain ⟨rst, valid, cmd⟩ := x
    obtain ⟨rfl, hrst'⟩ := List.forall_mem_cons.1 hrst
    rw [List.length_cons] at hk
    have hc := compressing_of_busyEdgesLeft_pos (s := s) (by omega)
    obtain ⟨hl', hleft⟩ := engineEdge_busyEdgesLeft hl hc
    simp only [runEdges, edge_busy valid cmd hc hl.2]
    exact ih hrst' hl' (by omega)

theorem busyEdgesLeft_of_ready {s : State} (hr : s.Ready) : s.Legal ∧ s.busyEdgesLeft = 0 :=
  ⟨hr.1, busyEdgesLeft_of_cmdReady hr.2⟩

theorem busyEdgesLeft_of_start {s : State} (hc : s.phase.compressing = true) (ht : s.t = 0) :
    s.Legal ∧ s.busyEdgesLeft = if s.phase = .cmpFin1 then 130 else 65 := by
  rw [busyEdgesLeft_of_compressing hc, ht]
  exact ⟨⟨used_of_compressing hc, by simp [ht]⟩, rfl⟩

theorem absorbEffect_busyEdgesLeft (db : Byte) {s : State} (hr : s.Ready) :
    (absorbEffect db s).Legal ∧ (absorbEffect db s).busyEdgesLeft = busyCycles (.absorb db) s := by
  rcases phase_of_cmdReady hr.2 with hp | hp
  · by_cases hn : s.n = 63
    · obtain ⟨hp', _, ht', _⟩ := absorbEffect_full_writes db hp hn
      have hstart := busyEdgesLeft_of_start (by rw [hp']; rfl) ht'
      rw [hp'] at hstart
      rwa [busyCycles_absorb_full db hp hn]
    · rw [absorbEffect_room db hp hn, busyCycles_absorb_room db hn]
      exact busyEdgesLeft_of_ready hr
  · rw [absorbEffect_done db hp, busyCycles, if_neg (by simp [hp])]
    exact busyEdgesLeft_of_ready hr

theorem finalEffect_busyEdgesLeft (data : Byte) {s : State} (hr : s.Ready) :
    (finalEffect s).Legal ∧ (finalEffect s).busyEdgesLeft = busyCycles (.final data) s := by
  rcases phase_of_cmdReady hr.2 with hp | hp
  · obtain ⟨hp', _, ht', _⟩ := finalEffect_accept_writes hp
    obtain ⟨hl, hleft⟩ := busyEdgesLeft_of_start (by rw [hp']; split <;> rfl) ht'
    refine ⟨hl, ?_⟩
    rw [hleft, hp', busyCycles, if_pos hp]
    by_cases hfits : s.n.toNat < 56
    · simp [hfits, Nat.le_of_lt_succ hfits]
    · simp [hfits, show ¬ s.n.toNat ≤ 55 by omega]
  · rw [finalEffect_done hp, busyCycles, if_neg (by simp [hp])]
    exact busyEdgesLeft_of_ready hr

/-- The table of R296 is the count of edges left after the accepting edge. -/
theorem effectOf_busyEdgesLeft (i : Instr) {s : State} (hr : s.Ready) :
    (effectOf i s).Legal ∧ (effectOf i s).busyEdgesLeft = busyCycles i s := by
  cases i with
  | init data => exact busyEdgesLeft_of_ready (initEffect_ready s)
  | absorb db => exact absorbEffect_busyEdgesLeft db hr
  | final data => exact finalEffect_busyEdgesLeft data hr
  | rsvd data => exact busyEdgesLeft_of_ready hr
  | read k => exact busyEdgesLeft_of_ready hr

/-- Phases from FINAL in ACCEPT to the digest; in them `cmd_ready` and `done` rise together (R31, R34). -/
def Phase.finalising : Phase → Bool
  | .cmpFin1 | .cmpFin2 | .done => true
  | .accept | .cmpAbs | .unused5 | .unused6 | .unused7 => false

theorem done_eq_cmdReady_of_finalising {s : State} (h : s.phase.finalising = true) : s.done = s.cmdReady := by
  cases hp : s.phase <;> simp_all [State.done, State.cmdReady, Phase.finalising]

theorem finalEffect_finalising {s : State} (hp : s.phase = .accept) : (finalEffect s).phase.finalising = true := by
  rw [(finalEffect_accept_writes hp).1]
  split <;> rfl

theorem engineEdge_finalising {s : State} (h : s.phase.finalising = true) : (engineEdge s).phase.finalising = true := by
  unfold engineEdge
  split
  · exact h
  · cases hp : s.phase <;> simp_all [feedForwardEdge, Phase.finalising]

/-- Settles O18: the table's count is `busyEdgesLeft` after the command, and every edge takes one off it; after FINAL the phases
are finalising, so that `done` is `cmd_ready`. -/
theorem busyForTheTableOfCycles : Obligations.BusyForTheTableOfCycles := by
  intro i s s' ins hr hi hexec hrst hlen
  rw [exec_command s hi, presentAtEdge_ready _ hr, Host.Outcome.next.injEq] at hexec
  subst hexec
  obtain ⟨hl, hleft⟩ := effectOf_busyEdgesLeft i hr
  rw [← hleft] at hlen ⊢
  have hready := engineEdge_iterate_cmdReady hl hlen
  refine ⟨_, runEdges_busy hrst hl hlen, hready, ?_⟩
  rintro data rfl hp
  rw [← hready]
  exact done_eq_cmdReady_of_finalising <| Function.Iterate.rec (fun u : State => u.phase.finalising = true)
    (finalEffect_finalising hp) (fun _ => engineEdge_finalising) ins.length

/-! ### The wait of a host that holds a command (R294) -/

theorem run_busy {s : State} (hl : s.Legal) (hw : HoldsOrWaits s.host) {k : Nat} (hk : k ≤ s.busyEdgesLeft) :
    Host.Core.run core k s = .next (engineEdge^[k] s) := by
  induction k generalizing s with
  | zero => rfl
  | succ k ih =>
    have hc := compressing_of_busyEdgesLeft_pos (s := s) (by omega)
    obtain ⟨hl', hleft⟩ := engineEdge_busyEdgesLeft hl hc
    rw [core_run_succ k (step_busy hc hl.2 hw)]
    exact ih hl' (by rwa [engineEdge_host]) (by omega)

/-- Settles O47: the host lets the engine make the edges that are left, at most 130, and the step after them accepts. -/
theorem heldCommandIsAcceptedInTime : Obligations.HeldCommandIsAcceptedInTime := by
  intro s cmd rest hi hh
  have hl := hi.legal
  have hrun := run_busy hl (.inl ⟨cmd, rest, hh⟩) (le_refl _)
  have hready := engineEdge_iterate_cmdReady hl (le_refl _)
  have hlegal := (engineEdge_iterate_busyEdgesLeft hl (le_refl _)).1
  have hhost := engineEdge_iterate_host s s.busyEdgesLeft
  rw [decide_eq_true rfl] at hready
  exact ⟨s.busyEdgesLeft, busyEdgesLeft_le s, _, hrun, ⟨hlegal, hready⟩, hhost,
    step_issue_ready cmd rest (hhost.trans hh) hready⟩

end Sys2Proof.Machine
